-- ==== Sys2Proof/Word.lean ====
section
/-! DEFINITION. The byte of 00_scope.md section 5: the one width of every cell, register, opcode and operand. -/

namespace Sys2Proof

/-- `Byte`: an 8-bit unsigned value (00_scope.md section 5; 10_state.md R20; 20_memory.md R50). -/
abbrev Byte := BitVec 8

end Sys2Proof
end

