-- ==== Sys2Proof/Syntax.lean ====
section
/-! DEFINITION. The instruction set: one constructor per row of spec/opcode_table.json (30_encoding.md R85). -/

namespace Sys2Proof

/-- The four instructions in the table's order. Every operand is a whole byte, used unchanged (30_encoding.md R81, R83):
a register index is not reduced to its low bits, so the indices 8 to 255 are instructions too. -/
inductive Instr where
  /-- `01`: halt (41_instructions.md R142). -/
  | hlt
  /-- `82 r imm`: load immediate (R143). -/
  | ldi (r imm : Byte)
  /-- `47 r`: print register (R144). -/
  | prn (r : Byte)
  /-- `A2 a b`: multiply; `a` is the destination and first source (R145). -/
  | mul (a b : Byte)
  deriving DecidableEq, Repr

end Sys2Proof
end

