-- ==== Sys2Proof/WellFormed.lean ====
section
/-! DEFINITION. Well-formed instructions: every register index names one of the eight registers (10_state.md R20, R21).
An ill-formed instruction still has an encoding and a meaning: it decodes, and it faults OutOfBounds when it is executed
(30_encoding.md R83). The encoder and the decoder therefore do not ask for well-formedness. -/

namespace Sys2Proof

/-- R21: an index is valid exactly when it is below 8, compared in full. -/
def validIndex (i : Byte) : Bool :=
  decide (i.toNat < 8)

/-- Every register index of the instruction is valid. -/
def Instr.wellFormed : Instr → Bool
  | .hlt => true
  | .ldi r _ => validIndex r
  | .prn r => validIndex r
  | .mul a b => validIndex a && validIndex b

end Sys2Proof
end

