-- ==== Sys2Proof/Decode.lean ====
section
/-! DEFINITION. instruction_decoder and the opcode table (30_encoding.md R80 to R90), the decoder of a list of bytes, and
the encoder. -/

namespace Sys2Proof

/-- `Kind ::= HLT | LDI | PRN | MUL` (30_encoding.md R86). -/
inductive Kind where
  | hlt
  | ldi
  | prn
  | mul
  deriving DecidableEq, Repr

/-- Why a list of bytes is no instruction. -/
inductive DecodeError where
  /-- There is no opcode byte. -/
  | noOpcode
  /-- The opcode byte matches no row of the table (R87). -/
  | unknownOpcode (op : Byte)
  /-- The opcode byte asks for more operand bytes than there are. -/
  | missingOperand (kind : Kind)
  deriving DecidableEq, Repr

/-- One row of the opcode table (30_encoding.md R85). -/
structure OpcodeRow where
  kind : Kind
  opcode : Byte
  operandBytes : Nat
  deriving DecidableEq, Repr

/-- The opcode table, a constant of the hardware (30_encoding.md R85; 10_state.md R35). -/
def opcodeTable : List OpcodeRow :=
  [⟨.hlt, 0b00000001#8, 0⟩, ⟨.ldi, 0b10000010#8, 2⟩, ⟨.prn, 0b01000111#8, 1⟩, ⟨.mul, 0b10100010#8, 2⟩]

/-- `decode(op)` of R86: exact match of all eight bits (R84, R89); the result is the kind and how many operand bytes
follow, both taken from the row. -/
def decodeOpcode (op : Byte) : Option (Kind × Nat) :=
  (opcodeTable.find? (fun row => row.opcode == op)).map (fun row => (row.kind, row.operandBytes))

/-- The encoding column of R85. -/
def Kind.opcode : Kind → Byte
  | .hlt => 0x01#8
  | .ldi => 0x82#8
  | .prn => 0x47#8
  | .mul => 0xA2#8

/-- The operand column of R85: how many operand bytes follow the opcode byte. -/
def Kind.operandBytes : Kind → Nat
  | .hlt => 0
  | .ldi => 2
  | .prn => 1
  | .mul => 2

/-- The instruction of a kind with its operand bytes by position (R81; 41_instructions.md R141). A kind with fewer
operand bytes ignores the rest. -/
def Kind.build (kind : Kind) (op1 op2 : Byte) : Instr :=
  match kind with
  | .hlt => .hlt
  | .ldi => .ldi op1 op2
  | .prn => .prn op1
  | .mul => .mul op1 op2

/-- The kind of an instruction. -/
def Instr.kind : Instr → Kind
  | .hlt => .hlt
  | .ldi _ _ => .ldi
  | .prn _ => .prn
  | .mul _ _ => .mul

/-- The operand bytes in the order they follow the opcode byte (R81). -/
def Instr.operands : Instr → List Byte
  | .hlt => []
  | .ldi r imm => [r, imm]
  | .prn r => [r]
  | .mul a b => [a, b]

/-- `1 + operand_byte_count` (30_encoding.md R80; 42_execution_engine.md R175). -/
def Instr.width (i : Instr) : Nat :=
  1 + i.kind.operandBytes

/-- The bytes of an instruction at ascending addresses: the opcode byte, then the operand bytes (R81, R91). -/
def encode (i : Instr) : List Byte :=
  i.kind.opcode :: i.operands

/-- The decoder on a list of bytes: total, rejecting by name, giving the instruction and the bytes after it. An unknown
opcode byte is rejected whatever follows it (R88). -/
def decode : List Byte → Except DecodeError (Instr × List Byte)
  | [] => .error .noOpcode
  | op :: rest =>
    match decodeOpcode op with
    | none => .error (.unknownOpcode op)
    | some (kind, n) =>
      match n, rest with
      | 0, tail => .ok (kind.build 0#8 0#8, tail)
      | 1, op1 :: tail => .ok (kind.build op1 0#8, tail)
      | 2, op1 :: op2 :: tail => .ok (kind.build op1 op2, tail)
      | _, _ => .error (.missingOperand kind)

/-- The bytes of a table word: bit 0 is the least significant bit of the first byte, and the second byte is bits 15..8.
Every bit from `nbits` on is 0. Three bytes, the longest instruction (R80). -/
def tableBytes (nbits w : Nat) : List Byte :=
  let v := w % 2 ^ nbits
  [BitVec.ofNat 8 v, BitVec.ofNat 8 (v / 2 ^ 8), BitVec.ofNat 8 (v / 2 ^ 16)]

/-- The instruction the decoder reads from a table word, laid out as `tableBytes` does. -/
def decodeTableWord (nbits w : Nat) : Option Instr :=
  match decode (tableBytes nbits w) with
  | .ok (i, _) => some i
  | .error _ => none

end Sys2Proof
end

