-- ==== Sys2Proof/Config.lean ====
section
/-! DEFINITION. The register file's shape and what the spec leaves open for the host (00_scope.md R9): its exit statuses.
`REG_INIT` is in Machine/RegInit.lean, and `LINE_END` (92_eei_decisions.md D10) is an argument of the renderer. The
hardware has no free value: 93_implementation_defined.md section 2. -/

namespace Sys2Proof

/-- register_file_8x8: eight registers of one byte (10_state.md R20). -/
abbrev RegFile := Vector Byte 8

/-- The host's exit statuses, OPEN in the spec (60_exceptions.md R229; 92_eei_decisions.md D19). -/
structure Config.ExitStatuses where
  loaderError : Nat
  fault : Nat
  halt : Nat
  deriving DecidableEq, Repr

/-- What R229 asks of the statuses: a loader error and a core fault exit with distinct non-zero statuses. -/
def Config.exitStatusesOk (c : Config.ExitStatuses) : Bool :=
  c.loaderError != c.fault && c.loaderError != 0 && c.fault != 0

end Sys2Proof
end

