-- ==== Sys2Proof/Machine/RegInit.lean ====
section
/-! DEFINITION. `REG_INIT`, the one parameter of the hardware that the spec leaves open (00_scope.md R9). -/

namespace Sys2Proof

/-- `REG_INIT`, the registers' contents at reset (70_reset_and_hazards.md R242; 92_eei_decisions.md D4). The spec leaves
it OPEN. DESIGN CHOICE (log entry 1), unsafe: zero in every register. Only `Machine.State.reset` and the reset of
`Machine.trackedCore` use it; `Machine.State.resetWith` takes any other. -/
def Config.regInit : RegFile := Vector.replicate 8 0x00#8

end Sys2Proof
end

