-- ==== Sys2Proof/Machine/State.lean ====
section
/-! DEFINITION. The machine state of 10_state.md R37 as plain data, its reset value (R38), and the reasons a step of the
model can stop. -/

namespace Sys2Proof.Machine

open Sys2Proof

/-- The reason of `Faulted(reason)` (10_state.md R31; 60_exceptions.md R200). A fault of this kind is a state of the
hardware and a next state of the model. -/
inductive FaultKind where
  /-- Memory or register access outside the valid range. -/
  | outOfBounds
  /-- The alu_unit was given an operation outside ADD and MUL. No execution reaches it (R203). -/
  | unsupportedOperation
  /-- The opcode byte matches no row of the opcode table. -/
  | unknownOpcode
  deriving DecidableEq, Repr

/-- The run state of the Execution Engine (10_state.md R31). -/
inductive RunState where
  | running
  | halted
  | faulted (reason : FaultKind)
  deriving DecidableEq, Repr

/-- memory_byte_array_256 (20_memory.md R50): the cells that do not hold `0x00`, addresses strictly rising. An unlisted
address reads as `0x00`, the value the spec gives every cell at reset (R51). -/
abbrev Memory := List Host.Cell

/-- Why a step of the model answers no next state. -/
inductive Fault where
  /-- Raised by `step` alone, in Halted and Faulted: the engine has no step there (42_execution_engine.md R178, R183,
  outcome `terminal`). Safe: the model stops where the spec says that no step exists (log entry 3). -/
  | terminal
  deriving DecidableEq, Repr

/-- Why the model gives an instruction no meaning. -/
inductive Refusal where
  /-- Raised by `exec` for an instruction without a meaning. No arm raises it: every instruction has its meaning
  (42_execution_engine.md R183, outcome `refused`). Safe. -/
  | notModelled (mnemonic : String)
  deriving DecidableEq, Repr

/-- The machine record of 10_state.md R37. -/
structure State where
  /-- memory_byte_array_256. -/
  mem : Memory
  /-- register_file_8x8. -/
  regs : RegFile
  /-- The address of the next opcode byte: a natural number that never wraps (R26, R27). -/
  pc : Nat
  /-- The run state (R31). -/
  run : RunState
  /-- The output trace in emission order (R33). -/
  out : List Byte
  deriving DecidableEq, Repr

/-- The state after a reset with the register contents `init` (10_state.md R38; 70_reset_and_hazards.md R240, R242). -/
def State.resetWith (init : RegFile) : State :=
  { mem := [], regs := init, pc := 0, run := .running, out := [] }

/-- The state after reset. The registers are `Config.regInit`, log entry 1. -/
def State.reset : State :=
  State.resetWith Config.regInit

end Sys2Proof.Machine
end

