-- ==== Sys2Proof/Machine/Ops.lean ====
section
/-! DEFINITION. The named operations over memory, registers, pc, run state and output: the memory ports (20_memory.md
R52, R53), the register ports (10_state.md R22, R23), fault entry (60_exceptions.md R205), the pc advance and the halt
(42_execution_engine.md R175, R176). A fault has no return (60_exceptions.md R207), so there is no operation for one. -/

namespace Sys2Proof.Machine

open Sys2Proof

/-- The byte an address holds. -/
def Memory.lookup : Memory → Nat → Byte
  | [], _ => 0x00#8
  | (key, v) :: rest, a => if key = a then v else Memory.lookup rest a

/-- The list with `v` at `a`, in canonical form again: storing `0x00` removes the entry. -/
def Memory.store : Memory → Nat → Byte → Memory
  | [], a, v => if v = 0x00#8 then [] else [(a, v)]
  | (key, w) :: rest, a, v =>
    if a < key then
      if v = 0x00#8 then (key, w) :: rest else (a, v) :: (key, w) :: rest
    else if a = key then
      if v = 0x00#8 then rest else (a, v) :: rest
    else (key, w) :: Memory.store rest a v

/-- The canonical form: addresses strictly rising, all below 256, and no entry that holds `0x00`. -/
abbrev Memory.wf (m : Memory) : Prop :=
  (m.map Prod.fst).Pairwise (· < ·) ∧ ∀ c ∈ m, c.1 < 256 ∧ c.2 ≠ 0x00#8

/-- `MemRead(addr, 1)` (20_memory.md R52). -/
def Memory.read (m : Memory) (a : Nat) : Except FaultKind Byte :=
  if a < 256 then .ok (Memory.lookup m a) else .error .outOfBounds

/-- `MemWrite(addr, 1, v)` (20_memory.md R53). -/
def Memory.write (m : Memory) (a : Nat) (v : Byte) : Except FaultKind Memory :=
  if a < 256 then .ok (Memory.store m a v) else .error .outOfBounds

/-- The bytes written to `a`, `a + 1`, … through `MemWrite`; a byte whose write is out of bounds leaves no trace. -/
def Memory.place (m : Memory) (a : Nat) : List Byte → Memory
  | [] => m
  | v :: rest =>
    match Memory.write m a v with
    | .ok m' => Memory.place m' (a + 1) rest
    | .error _ => Memory.place m (a + 1) rest

/-- `get(i)` (10_state.md R22), with `REG_INIT_MODE = given`: the index is compared with 8 in full (R21). The mode
`unwritten` is Machine/Unwritten.lean. -/
def regGet (regs : RegFile) (i : Byte) : Except FaultKind Byte :=
  if h : i.toNat < 8 then .ok regs[i.toNat] else .error .outOfBounds

/-- `set(i, v)` (10_state.md R23): `v` is any integer, stored modulo 256. -/
def regSet (regs : RegFile) (i : Byte) (v : Int) : Except FaultKind RegFile :=
  if h : i.toNat < 8 then .ok (regs.set i.toNat (BitVec.ofInt 8 v)) else .error .outOfBounds

/-- The state with the register file a unit gives back, or the unit's fault. -/
def State.withRegs (s : State) (r : Except FaultKind RegFile) : Except FaultKind State :=
  match r with
  | .ok regs => .ok { s with regs := regs }
  | .error k => .error k

/-- `x[i] <- v` (00_scope.md section 5). -/
def State.writeReg (s : State) (i : Byte) (v : Int) : Except FaultKind State :=
  s.withRegs (regSet s.regs i v)

/-- `emit(v)` (10_state.md R33). -/
def State.emit (s : State) (v : Byte) : State :=
  { s with out := s.out ++ [v] }

/-- Fault entry: `run <- Faulted(k)` and nothing else (60_exceptions.md R205; 42_execution_engine.md R177). -/
def State.raise (s : State) (k : FaultKind) : State :=
  { s with run := .faulted k }

/-- Step 5 of the cycle: `pc <- pc + 1 + n`, without wrapping (42_execution_engine.md R175). -/
def State.advance (s : State) (n : Nat) : State :=
  { s with pc := s.pc + 1 + n }

/-- Step 6 of the cycle: `run <- Halted` (42_execution_engine.md R176). -/
def State.halt (s : State) : State :=
  { s with run := .halted }

/-- Steps 4 and 5 of the cycle for an instruction with `n` operand bytes whose effect on `s` is `r`: a fault of the
effect aborts the step, leaving `s` but for the run state; otherwise the pc advances (42_execution_engine.md R176,
R177). -/
def finish (s : State) (n : Nat) (r : Except FaultKind State) : Host.Outcome State Fault Refusal :=
  match r with
  | .ok s' => .next (s'.advance n)
  | .error k => .next (s.raise k)

end Sys2Proof.Machine
end

