-- ==== Sys2Proof/Machine/LoadImmediate.lean ====
section
/-! DEFINITION. LDI, the one instruction on the register file's write port (41_instructions.md R140, R143). -/

namespace Sys2Proof.Machine

open Sys2Proof

/-- LDI r, imm (41_instructions.md R143): `x[r] <- imm`. -/
def execLdi (r imm : Byte) (s : State) : Host.Outcome State Fault Refusal :=
  finish s 2 (s.writeReg r imm.toNat)

end Sys2Proof.Machine
end

