-- ==== Sys2Proof/Machine/Alu.lean ====
section
/-! DEFINITION. alu_unit (40_alu_unit.md R110 to R128). -/

namespace Sys2Proof.Machine

open Sys2Proof

/-- The operation kinds of the `op` input (40_alu_unit.md R112). -/
inductive AluKind where
  | add
  | mul
  | sub
  | and
  | or
  | xor
  | shl
  | shr
  | cmp
  /-- Codes 9 to 15. -/
  | other
  deriving DecidableEq, Repr

/-- The code table of R112. -/
def aluKind (op : BitVec 4) : AluKind :=
  match op.toNat with
  | 0 => .add
  | 1 => .mul
  | 2 => .sub
  | 3 => .and
  | 4 => .or
  | 5 => .xor
  | 6 => .shl
  | 7 => .shr
  | 8 => .cmp
  | _ => .other

/-- `va <- x[a]; vb <- x[b]; x[a] <- f(va, vb) mod 256` (R113): both reads come before the one write, and a fault of
either leaves nothing written. -/
def aluBinary (f : Nat → Nat → Nat) (a b : Byte) (regs : RegFile) : Except FaultKind RegFile :=
  match regGet regs a with
  | .error k => .error k
  | .ok va =>
    match regGet regs b with
    | .error k => .error k
    | .ok vb => regSet regs a (f va.toNat vb.toNat)

/-- `apply(op, a, b)` (R113): the kind is matched before any register access. -/
def aluApply (op : AluKind) (a b : Byte) (regs : RegFile) : Except FaultKind RegFile :=
  match op with
  | .add => aluBinary (fun x y => x + y) a b regs
  | .mul => aluBinary (fun x y => x * y) a b regs
  | .sub => .error .unsupportedOperation
  | .and => .error .unsupportedOperation
  | .or => .error .unsupportedOperation
  | .xor => .error .unsupportedOperation
  | .shl => .error .unsupportedOperation
  | .shr => .error .unsupportedOperation
  | .cmp => .error .unsupportedOperation
  | .other => .error .unsupportedOperation

/-- The unit at its ports (R110): a 4-bit `op` and two whole operand bytes; the result is the register file after the
write, or the `fault` output. -/
def aluUnit (op : BitVec 4) (a b : Byte) (regs : RegFile) : Except FaultKind RegFile :=
  aluApply (aluKind op) a b regs

end Sys2Proof.Machine
end

