-- ==== Sys2Proof/Machine/Multiply.lean ====
section
/-! DEFINITION. MUL, the one instruction that reaches the alu_unit (40_alu_unit.md R116; 41_instructions.md R145). -/

namespace Sys2Proof.Machine

open Sys2Proof

/-- MUL a, b (41_instructions.md R145): `ALU.apply(MUL, a, b)`. -/
def execMul (a b : Byte) (s : State) : Host.Outcome State Fault Refusal :=
  finish s 2 (s.withRegs (aluApply .mul a b s.regs))

end Sys2Proof.Machine
end

