-- ==== Sys2Proof/Machine/System.lean ====
section
/-! DEFINITION. The system instructions, HLT and PRN (41_instructions.md R142, R144, R147). -/

namespace Sys2Proof.Machine

open Sys2Proof

/-- HLT (41_instructions.md R142; 90_conflicts.md C5): no effect in step 4; the pc advances by 1, then the engine halts. -/
def execHlt (s : State) : Host.Outcome State Fault Refusal :=
  .next (s.advance 0).halt

/-- PRN r (41_instructions.md R144): `v <- x[r]; emit(v)`. -/
def execPrn (r : Byte) (s : State) : Host.Outcome State Fault Refusal :=
  finish s 1
    (match regGet s.regs r with
    | .ok v => .ok (s.emit v)
    | .error k => .error k)

end Sys2Proof.Machine
end

