-- ==== Sys2Proof/Machine/Dispatch.lean ====
section
/-! DEFINITION. Steps 4 to 6 of the cycle by kind (42_execution_engine.md R176; 41_instructions.md R140): one arm per
instruction, in the opcode table's order. `exec` does not look at the run state on entry: `step` calls it only while
Running (log entry 4). -/

namespace Sys2Proof.Machine

open Sys2Proof

def exec (i : Instr) (s : State) : Host.Outcome State Fault Refusal :=
  match i with
  | .hlt => Sys2Proof.Machine.execHlt s
  | .ldi r imm => Sys2Proof.Machine.execLdi r imm s
  | .prn r => Sys2Proof.Machine.execPrn r s
  | .mul a b => Sys2Proof.Machine.execMul a b s

end Sys2Proof.Machine
end

