-- ==== Sys2Proof/Machine/Operands.lean ====
section
/-! DEFINITION. The operand forms: fetching an operand byte (41_instructions.md R141; 42_execution_engine.md R173), and
which registers an instruction reads and writes (10_state.md R24). -/

namespace Sys2Proof.Machine

open Sys2Proof

/-- One operand byte, read only where the decoder asks for it. An operand that is not asked for is given as 0, and no
instruction uses it. -/
def fetchOperand (m : Memory) (a : Nat) (wanted : Bool) : Except FaultKind Byte :=
  if wanted then m.read a else .ok 0#8

/-- The register indices an instruction reads, in the order of its pseudocode (10_state.md R24; 40_alu_unit.md R113). -/
def readsRegs : Instr → List Byte
  | .hlt => []
  | .ldi _ _ => []
  | .prn r => [r]
  | .mul a b => [a, b]

/-- The register index an instruction writes (10_state.md R24). -/
def writesReg : Instr → Option Byte
  | .hlt => none
  | .ldi r _ => some r
  | .prn _ => none
  | .mul a _ => some a

end Sys2Proof.Machine
end

