-- ==== Sys2Proof/Machine/Fetch.lean ====
section
/-! DEFINITION. The fetch_unit sub-block with the decoder: steps 1 to 3 of the cycle (42_execution_engine.md R171 to R174,
R176). -/

namespace Sys2Proof.Machine

open Sys2Proof

/-- Steps 1 to 3: the opcode byte at `pc`, its decoding, then the operand bytes the decoder asks for, each read
bounds-checked. The first check that fails is the fault (60_exceptions.md R206). -/
def fetchInstr (s : State) : Except FaultKind Instr :=
  match s.mem.read s.pc with
  | .error k => .error k
  | .ok op =>
    match decodeOpcode op with
    | none => .error .unknownOpcode
    | some (kind, n) =>
      match fetchOperand s.mem (s.pc + 1) (decide (1 ≤ n)) with
      | .error k => .error k
      | .ok op1 =>
        match fetchOperand s.mem (s.pc + 2) (decide (n = 2)) with
        | .error k => .error k
        | .ok op2 => .ok (kind.build op1 op2)

/-- The bytes of memory from `a` on, at most `n` of them and none past address 255. -/
def bytesAt (m : Memory) (a : Nat) : Nat → List Byte
  | 0 => []
  | n + 1 => if a < 256 then m.lookup a :: bytesAt m (a + 1) n else []

end Sys2Proof.Machine
end

