-- ==== Sys2Proof/Machine/Step.lean ====
section
/-! DEFINITION. One cycle of the execution_control_loop (42_execution_engine.md R170, R176 to R178). -/

namespace Sys2Proof.Machine

open Sys2Proof

/-- One step. While Running: fetch and decode, then the instruction's effect; a fault of the fetch is entered as
60_exceptions.md R205 says. In Halted and Faulted there is no step (R178). -/
def step (s : State) : Host.Outcome State Fault Refusal :=
  match s.run with
  | .running =>
    match fetchInstr s with
    | .ok i => exec i s
    | .error k => .next (s.raise k)
  | .halted => .fault .terminal
  | .faulted _ => .fault .terminal

/-- `s` with the instruction of a table word stored where `step` fetches: its bytes at `pc`, `pc + 1` and `pc + 2` (those
that memory has), and the engine Running, since it fetches in no other state. It stands for the host's load
(log entry 9). -/
def State.withFetchWord (s : State) (nbits w : Nat) : State :=
  { s with mem := s.mem.place s.pc (tableBytes nbits w), run := .running }

end Sys2Proof.Machine
end

