-- ==== Sys2Proof/Machine/Flags.lean ====
section
/-! DEFINITION. The hardware has no flags and no condition codes (10_state.md R30). Its only status register is the run
state; this file gives its binary encoding (10_state.md R31; 60_exceptions.md R200). -/

namespace Sys2Proof.Machine

/-- The `reason` field, bits [3:2]. -/
def FaultKind.code : FaultKind → BitVec 2
  | .outOfBounds => 0b01#2
  | .unsupportedOperation => 0b10#2
  | .unknownOpcode => 0b11#2

/-- The run state register: `reason` in bits [3:2], `state` in bits [1:0]. -/
def RunState.encode : RunState → BitVec 4
  | .running => 0b00#2 ++ 0b00#2
  | .halted => 0b00#2 ++ 0b01#2
  | .faulted k => k.code ++ 0b10#2

end Sys2Proof.Machine
end

