-- ==== Sys2Proof/Machine/Output.lean ====
section
/-! DEFINITION. The host's rendering of the output trace (60_exceptions.md R224). -/

namespace Sys2Proof.Machine

open Sys2Proof

/-- The character of a decimal digit. -/
def digitChar (d : Nat) : Char :=
  Char.ofNat (48 + d)

/-- The decimal numeral of a byte: no leading zeros, sign or padding. -/
def decimal (v : Byte) : List Char :=
  let n := v.toNat
  if n < 10 then [digitChar n]
  else if n < 100 then [digitChar (n / 10), digitChar (n % 10)]
  else [digitChar (n / 100), digitChar (n / 10 % 10), digitChar (n % 10)]

/-- Each byte of the trace, in order, on a line of its own. `LINE_END` is the host's parameter
(92_eei_decisions.md D10). -/
def renderOutput (lineEnd : List Char) (out : List Byte) : List Char :=
  out.flatMap (fun v => decimal v ++ lineEnd)

end Sys2Proof.Machine
end

