-- ==== Sys2Proof/Machine/Load.lean ====
section
/-! DEFINITION. The core-facing load of a program (70_reset_and_hazards.md R247) and the loader's errors (60_exceptions.md
R228). Loading is not an instruction (R248). -/

namespace Sys2Proof.Machine

open Sys2Proof

/-- A loader error: it ends the attempt before execution begins and is no fault of the core (60_exceptions.md R228). -/
inductive LoaderError where
  /-- The file is missing; the report carries the path. -/
  | fileNotFound (path : List Char)
  /-- A line's trimmed text is no base-2 byte literal (R227). -/
  | parseError
  /-- More bytes than memory has cells (R247; 90_conflicts.md C6). -/
  | overflow
  deriving DecidableEq, Repr

/-- `load(bytes)`: the length is checked before any write, so all the bytes are written, from address 0, or none. -/
def load (s : State) (bytes : List Byte) : Except LoaderError State :=
  if 256 < bytes.length then .error .overflow
  else .ok { s with mem := s.mem.place 0 bytes }

end Sys2Proof.Machine
end

