-- ==== Sys2Proof/Machine/LoaderText.lean ====
section
/-! DEFINITION. The program text the loader reads (60_exceptions.md R225 to R228): one base-2 byte literal a line, `#`
comments. A text is a list of lines without their line ends (log entry 6). -/

namespace Sys2Proof.Machine

open Sys2Proof

/-- A line of text. -/
abbrev Line := List Char

/-- R225: everything from the first `#` on is discarded. -/
def stripComment (line : Line) : Line :=
  line.takeWhile (fun c => c != '#')

/-- R226: trimmed of surrounding whitespace. DESIGN CHOICE (log entry 5): whitespace is space, tab, line feed and
carriage return. -/
def trimSpace (line : Line) : Line :=
  ((line.dropWhile Char.isWhitespace).reverse.dropWhile Char.isWhitespace).reverse

/-- The value of a text of `0` and `1`, most significant digit first, after digits of value `acc`; `none` where another
character stands. -/
def bitsValue (acc : Nat) : Line → Option Nat
  | [] => some acc
  | c :: rest =>
    if c = '0' then bitsValue (2 * acc) rest
    else if c = '1' then bitsValue (2 * acc + 1) rest
    else none

/-- R227: one or more of `0` and `1`, of value at most 255. -/
def parseByte (text : Line) : Except LoaderError Byte :=
  if text.isEmpty then .error .parseError
  else
    match bitsValue 0 text with
    | some v => if v ≤ 255 then .ok (BitVec.ofNat 8 v) else .error .parseError
    | none => .error .parseError

/-- R225 to R227 for one line: the bytes it contributes, none or one. -/
def parseLine (line : Line) : Except LoaderError (List Byte) :=
  let text := trimSpace (stripComment line)
  if text.isEmpty then .ok []
  else
    match parseByte text with
    | .ok v => .ok [v]
    | .error e => .error e

/-- The bytes a text contributes, in order; the first bad line is the error. -/
def parseText : List Line → Except LoaderError (List Byte)
  | [] => .ok []
  | line :: rest =>
    match parseLine line with
    | .error e => .error e
    | .ok here =>
      match parseText rest with
      | .error e => .error e
      | .ok more => .ok (here ++ more)

/-- Loading a file into the machine: `file` is the text the host finds at `path`, `none` where there is no file (R228).
DEDUCED (log entry 7): the whole text is read before the length is checked. -/
def loadFile (s : State) (path : List Char) (file : Option (List Line)) : Except LoaderError State :=
  match file with
  | none => .error (.fileNotFound path)
  | some text =>
    match parseText text with
    | .error e => .error e
    | .ok bytes => load s bytes

end Sys2Proof.Machine
end

