-- ==== Sys2Proof/Machine/Run.lean ====
section
/-! DEFINITION. Run-to-completion (42_execution_engine.md R179). -/

namespace Sys2Proof.Machine

/-- At most `n` steps, stopping where there is no step. -/
def runFor : Nat → State → State
  | 0, s => s
  | n + 1, s =>
    match step s with
    | .next s' => runFor n s'
    | .fault _ => s
    | .refused _ => s

/-- `run(m)`: steps until the run state is terminal, then returns that state. 129 steps are enough from every state
(R180), so the bound cuts no run short. -/
def runToEnd (s : State) : State :=
  runFor 129 s

end Sys2Proof.Machine
end

