-- ==== Sys2Proof/Machine/Embedder.lean ====
section
/-! DEFINITION. The host's moves and when each is allowed (60_exceptions.md R221; 70_reset_and_hazards.md R243, R248). The
phase is the host's, not the machine's: nothing in State tells whether a step has run since the reset. -/

namespace Sys2Proof.Machine

open Sys2Proof

/-- How far the host is since the last reset. -/
inductive Phase where
  /-- No step has run: loading is allowed. -/
  | ready
  /-- A step has run: no load until a reset (70_reset_and_hazards.md R248). -/
  | stepped
  /-- A loader error occurred: the engine takes no step (60_exceptions.md R228). -/
  | loadFailed
  deriving DecidableEq, Repr

/-- A machine with its host's phase. -/
structure Session where
  machine : State
  phase : Phase
  deriving DecidableEq, Repr

/-- The session right after construction or a reset (70_reset_and_hazards.md R240). -/
def Session.start : Session :=
  { machine := State.reset, phase := .ready }

/-- The host's moves, exactly those of R221; a load from a file is a load of the bytes its text contributes. -/
inductive Move where
  | reset
  | load (bytes : List Byte)
  | loadFile (path : List Char) (file : Option (List Line))
  | step
  | run
  | stop
  | readState
  | readOutput
  deriving DecidableEq, Repr

/-- The session after a load that answered `r`: a loader error leaves the machine and ends the attempt. -/
def Session.afterLoad (x : Session) (r : Except LoaderError State) : Session :=
  match r with
  | .ok s => { machine := s, phase := .ready }
  | .error _ => { x with phase := .loadFailed }

/-- The session after a move, `none` where the move is not allowed. DEDUCED (log entry 8): after a loader error only
reset, stop and the reads are allowed. -/
def Session.perform (x : Session) : Move → Option Session
  | .reset => some Session.start
  | .load bytes =>
    match x.phase with
    | .ready => some (x.afterLoad (Sys2Proof.Machine.load x.machine bytes))
    | .stepped => none
    | .loadFailed => none
  | .loadFile path file =>
    match x.phase with
    | .ready => some (x.afterLoad (Sys2Proof.Machine.loadFile x.machine path file))
    | .stepped => none
    | .loadFailed => none
  | .step =>
    match x.phase, Sys2Proof.Machine.step x.machine with
    | .loadFailed, _ => none
    | _, .next s => some { machine := s, phase := .stepped }
    | _, .fault _ => none
    | _, .refused _ => none
  | .run =>
    match x.phase, x.machine.run with
    | .loadFailed, _ => none
    | _, .running => some { machine := runToEnd x.machine, phase := .stepped }
    | _, .halted => none
    | _, .faulted _ => none
  | .stop => some x
  | .readState => some x
  | .readOutput => some x

/-- The exit status a host gives the end of a run or of an attempt to load (60_exceptions.md R220, R228, R229); `none`
while there is no end. -/
def exitStatus (c : Config.ExitStatuses) (x : Session) : Option Nat :=
  match x.phase, x.machine.run with
  | .loadFailed, _ => some c.loaderError
  | _, .running => none
  | _, .halted => some c.halt
  | _, .faulted _ => some c.fault

end Sys2Proof.Machine
end

