-- ==== Sys2Proof/Machine/Unwritten.lean ====
section
/-! DEFINITION. The mode `REG_INIT_MODE = unwritten` (10_state.md R22, R23; 60_exceptions.md R204; 42_execution_engine.md
R183): the machine beside a mark for each register that has been written since reset. A step that would read an unmarked
register is the model fault UnwrittenRegisterRead. Log entry 2: `step` itself is the mode `given`. -/

namespace Sys2Proof.Machine

open Sys2Proof

/-- The machine and its register marks. -/
structure Tracked where
  machine : State
  written : Vector Bool 8
  deriving DecidableEq, Repr

/-- Why a step in this mode answers no next state. -/
inductive ModelFault where
  /-- Raised by `stepTracked` in Halted and Faulted (42_execution_engine.md R178). Safe. -/
  | terminal
  /-- Raised by `stepTracked` where the step reads register `i` and nothing has written it since reset
  (60_exceptions.md R204). Safe: it errs toward unprovable. -/
  | unwrittenRegisterRead (i : Byte)
  deriving DecidableEq, Repr

/-- The first index of the list that is valid and unmarked. An index of 8 or more ends the search: its read faults
OutOfBounds first (10_state.md R22). -/
def firstUnwritten (written : Vector Bool 8) : List Byte → Option Byte
  | [] => none
  | i :: rest =>
    if h : i.toNat < 8 then
      if written[i.toNat] then firstUnwritten written rest else some i
    else none

/-- `mark reg[i] written` (10_state.md R23). -/
def markWritten (written : Vector Bool 8) : Option Byte → Vector Bool 8
  | none => written
  | some i => if h : i.toNat < 8 then written.set i.toNat true else written

/-- The state after reset with nothing written, whatever the registers hold (10_state.md R38). -/
def Tracked.resetWith (init : RegFile) : Tracked :=
  { machine := State.resetWith init, written := Vector.replicate 8 false }

/-- One step in the mode `unwritten`. -/
def stepTracked (t : Tracked) : Host.Outcome Tracked ModelFault Refusal :=
  match t.machine.run with
  | .running =>
    match fetchInstr t.machine with
    | .error k => .next { t with machine := t.machine.raise k }
    | .ok i =>
      match firstUnwritten t.written (readsRegs i) with
      | some r => .fault (.unwrittenRegisterRead r)
      | none =>
        match exec i t.machine with
        | .next s => .next { machine := s, written := markWritten t.written (writesReg i) }
        | .fault _ => .fault .terminal
        | .refused r => .refused r
  | .halted => .fault .terminal
  | .faulted _ => .fault .terminal

/-- The machine of this mode behind the host's interface; its reset takes the registers of `State.reset`. -/
def trackedCore : Host.Core :=
  { State := Tracked, Fault := ModelFault, Refusal := Refusal, step := stepTracked,
    reset := Tracked.resetWith Config.regInit }

end Sys2Proof.Machine
end

