-- ==== Sys2Proof/Safety.lean ====
section
/-! DEFINITION. The terms claims use: the causes of a fault, the machine's invariant, and the agreement of two machines on
what has been written. -/

namespace Sys2Proof.Machine

open Sys2Proof

/-- The conditions of 60_exceptions.md R201 under which a step from `s` faults OutOfBounds, row by row. -/
def State.outOfBoundsCause (s : State) : Prop :=
  256 ≤ s.pc ∨
  (s.mem.lookup s.pc = 0x47#8 ∧ (s.pc = 255 ∨ 8 ≤ (s.mem.lookup (s.pc + 1)).toNat)) ∨
  (s.mem.lookup s.pc = 0x82#8 ∧ (254 ≤ s.pc ∨ 8 ≤ (s.mem.lookup (s.pc + 1)).toNat)) ∨
  (s.mem.lookup s.pc = 0xA2#8 ∧
    (254 ≤ s.pc ∨ 8 ≤ (s.mem.lookup (s.pc + 1)).toNat ∨ 8 ≤ (s.mem.lookup (s.pc + 2)).toNat))

/-- The condition of 60_exceptions.md R202 under which a step from `s` faults UnknownOpcode. -/
def State.unknownOpcodeCause (s : State) : Prop :=
  s.pc ≤ 255 ∧ s.mem.lookup s.pc ≠ 0x01#8 ∧ s.mem.lookup s.pc ≠ 0x82#8 ∧ s.mem.lookup s.pc ≠ 0x47#8 ∧
    s.mem.lookup s.pc ≠ 0xA2#8

/-- What the run state says about memory and pc: a Halted machine has its HLT just before the pc (41_instructions.md
R142), a Faulted one still addresses the cause of its fault (60_exceptions.md R200), and no machine is in
`Faulted(UnsupportedOperation)` (R203). -/
def State.runExplained (s : State) : Prop :=
  match s.run with
  | .running => True
  | .halted => 1 ≤ s.pc ∧ s.mem.lookup (s.pc - 1) = 0x01#8
  | .faulted .outOfBounds => s.outOfBoundsCause
  | .faulted .unknownOpcode => s.unknownOpcodeCause
  | .faulted .unsupportedOperation => False

/-- The machine's invariant: memory keeps its canonical form, the pc is at most 256 (10_state.md R27), and the run state
is explained. -/
def State.inv (s : State) : Prop :=
  s.mem.wf ∧ s.pc ≤ 256 ∧ s.runExplained

/-- The mode `unwritten` is about to read the valid register `r` and nothing has written it: the instruction fetched is
PRN of it, MUL with it as `a`, or MUL with it as `b` after an `a` that is valid and marked (10_state.md R22;
40_alu_unit.md R113). -/
def Tracked.unwrittenReadCause (t : Tracked) (r : Byte) : Prop :=
  ∃ h : r.toNat < 8, t.written[r.toNat] = false ∧
    (fetchInstr t.machine = .ok (.prn r) ∨
     (∃ b, fetchInstr t.machine = .ok (.mul r b)) ∨
     (∃ a, fetchInstr t.machine = .ok (.mul a r) ∧ ∃ ha : a.toNat < 8, t.written[a.toNat] = true))

/-- Two machines of the mode `unwritten` that differ at most in the contents of registers nothing has written. -/
def Tracked.agree (t u : Tracked) : Prop :=
  t.machine.mem = u.machine.mem ∧ t.machine.pc = u.machine.pc ∧ t.machine.run = u.machine.run ∧
  t.machine.out = u.machine.out ∧ t.written = u.written ∧
  ∀ i : Fin 8, t.written[i] = true → t.machine.regs[i] = u.machine.regs[i]

end Sys2Proof.Machine
end

