-- ==== Sys2Proof/Certificates/Slice0/Obligations.lean ====
section
/-! DEFINITION. The statements for the provers. Each docstring names the rules or sections of spec/ it formalises. -/

open Sys2Proof Sys2Proof.Machine

/-! ## Encoding and decoding -/

/-- 30_encoding.md sections 1 to 3 (R81, R85, R86). The decoder reads an instruction from a list of bytes exactly where
the list begins with that instruction's encoding, and it leaves the bytes after it: decoding an encoding gives the
instruction back, at every value of every operand byte, and no other bytes decode to it. -/
def Obligations.DecodeExactlyEncode : Prop :=
  ∀ (bytes : List Byte) (i : Instr) (rest : List Byte),
    decode bytes = .ok (i, rest) ↔ bytes = encode i ++ rest

/-- 30_encoding.md section 6 (R91), 95_test_vectors.md section 1 (E4, E5): one word of each instruction, written out from
its format. -/
def Obligations.WrittenOutWordsDecode : Prop :=
  decode [0b00000001#8] = .ok (.hlt, []) ∧
  decode [0b10000010#8, 0, 8] = .ok (.ldi 0 8, []) ∧
  decode [0b01000111#8, 0] = .ok (.prn 0, []) ∧
  decode [0b10100010#8, 0, 1] = .ok (.mul 0 1, [])

/-- 30_encoding.md section 4 (R87, R88): every opcode byte outside the four is rejected by name whatever follows it, and
there are 252 such bytes. -/
def Obligations.IllegalOpcodesRejected : Prop :=
  (∀ (op : Byte) (rest : List Byte), op ≠ 0x01#8 → op ≠ 0x82#8 → op ≠ 0x47#8 → op ≠ 0xA2#8 →
    decode (op :: rest) = .error (.unknownOpcode op)) ∧
  ((List.range 256).filter (fun n => (decodeOpcode (BitVec.ofNat 8 n)).isNone)).length = 252

/-! ## Memory and loading -/

/-- 20_memory.md R65. -/
def Obligations.MemoryBoundary : Prop :=
  ∀ (m : Memory) (v : Byte),
    m.read 256 = .error .outOfBounds ∧ m.write 256 v = .error .outOfBounds ∧
    (∃ w, m.read 255 = .ok w) ∧ (∃ m', m.write 255 v = .ok m')

/-- 20_memory.md sections 1 and 2 (R52, R53, R58): inside the address space a write succeeds, keeps memory canonical, is
read back, and changes no other cell; outside it, read and write fail with OutOfBounds. -/
def Obligations.MemoryWriteThenRead : Prop :=
  ∀ (m : Memory) (a : Nat) (v : Byte), m.wf →
    (a < 256 → ∃ m', m.write a v = .ok m' ∧ m'.wf ∧ m'.read a = .ok v ∧
      ∀ b, b ≠ a → m'.read b = m.read b) ∧
    (256 ≤ a → m.write a v = .error .outOfBounds ∧ m.read a = .error .outOfBounds)

/-- 20_memory.md section 5 (R66 as 90_conflicts.md C7 reads it), 70_reset_and_hazards.md section 2: loading at most 256
bytes after a reset succeeds; every loaded byte is read back, every address past them reads `0x00`, and nothing but
memory changes. -/
def Obligations.LoadedBytesReadBack : Prop :=
  ∀ (init : RegFile) (bytes : List Byte), bytes.length ≤ 256 →
    ∃ t, load (State.resetWith init) bytes = .ok t ∧
      (∀ (n : Nat) (h : n < bytes.length), t.mem.read n = .ok bytes[n]) ∧
      (∀ n, bytes.length ≤ n → n < 256 → t.mem.read n = .ok 0x00#8) ∧
      t.regs = init ∧ t.pc = 0 ∧ t.run = .running ∧ t.out = []

/-- 70_reset_and_hazards.md section 2: more than 256 bytes are refused with Overflow, and then no byte is written: the
answer holds no machine. 92_eei_decisions.md D13 is the spec's own choice. -/
def Obligations.OverlongLoadOverflows : Prop :=
  ∀ (s : State) (bytes : List Byte), 256 < bytes.length → load s bytes = .error .overflow

/-! ## Registers and the alu_unit -/

/-- 10_state.md section 1 (R21, R22 and R23 in the mode `given`), 95_test_vectors.md E1: for a valid index, `set` then
`get` gives the value modulo 256 and no other register changes; an index of 8 or more, never reduced, is OutOfBounds. -/
def Obligations.RegisterSetThenGet : Prop :=
  ∀ (regs : RegFile) (i : Byte) (v : Int),
    (i.toNat < 8 → ∃ regs' w, regSet regs i v = .ok regs' ∧ regGet regs' i = .ok w ∧
      (w.toNat : Int) = v % 256 ∧ ∀ j, j ≠ i → regGet regs' j = regGet regs j) ∧
    (8 ≤ i.toNat → regSet regs i v = .error .outOfBounds ∧ regGet regs i = .error .outOfBounds)

/-- 40_alu_unit.md sections 1 and 2 (R113 to R115): ADD and MUL write `reg[a]` with the sum or product modulo 256 of the
old values; an index of 8 or more is OutOfBounds and nothing is written. -/
def Obligations.AluComputesModulo256 : Prop :=
  ∀ (a b : Byte) (regs : RegFile),
    (∀ (ha : a.toNat < 8) (hb : b.toNat < 8),
      (∃ regs', aluUnit 0#4 a b regs = .ok regs' ∧
        regs'[a.toNat].toNat = (regs[a.toNat].toNat + regs[b.toNat].toNat) % 256) ∧
      (∃ regs', aluUnit 1#4 a b regs = .ok regs' ∧
        regs'[a.toNat].toNat = (regs[a.toNat].toNat * regs[b.toNat].toNat) % 256)) ∧
    (8 ≤ a.toNat ∨ 8 ≤ b.toNat →
      aluUnit 0#4 a b regs = .error .outOfBounds ∧ aluUnit 1#4 a b regs = .error .outOfBounds)

/-- 40_alu_unit.md R121 to R128: every kind but ADD and MUL fails with UnsupportedOperation for every operand pair and
every register file, valid indices or not; the answer is the fault alone, so no register is written. -/
def Obligations.OtherAluKindsUnsupported : Prop :=
  ∀ (op : BitVec 4) (a b : Byte) (regs : RegFile),
    aluUnit op a b regs = .error .unsupportedOperation ↔ op ≠ 0#4 ∧ op ≠ 1#4

/-- 40_alu_unit.md R118. -/
def Obligations.AluSameIndexDoublesAndSquares : Prop :=
  ∀ (a : Byte) (regs : RegFile) (h : a.toNat < 8),
    (∃ regs', aluUnit 0#4 a a regs = .ok regs' ∧ regs'[a.toNat].toNat = (2 * regs[a.toNat].toNat) % 256) ∧
    (∃ regs', aluUnit 1#4 a a regs = .ok regs' ∧ regs'[a.toNat].toNat = (regs[a.toNat].toNat ^ 2) % 256)

/-- 40_alu_unit.md R117: whatever the operation, a register other than `reg[a]` keeps its value, and an unsupported kind
gives no register file at all. -/
def Obligations.AluWritesOnlyFirstOperand : Prop :=
  ∀ (op : BitVec 4) (a b : Byte) (regs regs' : RegFile), aluUnit op a b regs = .ok regs' →
    (op = 0#4 ∨ op = 1#4) ∧ ∀ j, j ≠ a → regGet regs' j = regGet regs j

/-! ## What each instruction does -/

/-- 41_instructions.md section 2 (HLT), 90_conflicts.md C5: HLT completes in every state. -/
def Obligations.HltResult : Prop :=
  ∀ s : State, exec .hlt s = .next { s with pc := s.pc + 1, run := .halted }

/-- 41_instructions.md section 2 (LDI): LDI completes for every register index the file has, and takes the fault
OutOfBounds for every other. -/
def Obligations.LdiResult : Prop :=
  ∀ (r imm : Byte) (s : State),
    (∀ h : r.toNat < 8, exec (.ldi r imm) s = .next { s with regs := s.regs.set r.toNat imm, pc := s.pc + 3 }) ∧
    (8 ≤ r.toNat → exec (.ldi r imm) s = .next { s with run := .faulted .outOfBounds })

/-- 41_instructions.md section 2 (PRN), in the mode `REG_INIT_MODE = given`: PRN completes for every register index the
file has, and takes the fault OutOfBounds for every other. -/
def Obligations.PrnResult : Prop :=
  ∀ (r : Byte) (s : State),
    (∀ h : r.toNat < 8, exec (.prn r) s = .next { s with out := s.out ++ [s.regs[r.toNat]], pc := s.pc + 2 }) ∧
    (8 ≤ r.toNat → exec (.prn r) s = .next { s with run := .faulted .outOfBounds })

/-- 41_instructions.md section 2 (MUL), in the mode `REG_INIT_MODE = given`: MUL completes for every two register indices
the file has, and takes the fault OutOfBounds for every other pair. -/
def Obligations.MulResult : Prop :=
  ∀ (a b : Byte) (s : State),
    (∀ (ha : a.toNat < 8) (hb : b.toNat < 8), exec (.mul a b) s = .next { s with
      regs := s.regs.set a.toNat (BitVec.ofNat 8 (s.regs[a.toNat].toNat * s.regs[b.toNat].toNat % 256)),
      pc := s.pc + 3 }) ∧
    (8 ≤ a.toNat ∨ 8 ≤ b.toNat → exec (.mul a b) s = .next { s with run := .faulted .outOfBounds })

/-- 41_instructions.md R142: the encoding of HLT, and a step on one at any address of memory. -/
def Obligations.HltFromMemory : Prop :=
  encode .hlt = [0b00000001#8] ∧
  ∀ s : State, s.run = .running → s.pc ≤ 255 → s.mem.read s.pc = .ok 0x01#8 →
    step s = .next { s with pc := s.pc + 1, run := .halted }

/-- 41_instructions.md R143: the encoding of LDI, and a step on one: the register written, a bad register index, an
operand past the end of memory, and, in the mode `unwritten`, a target that need not have been written before. -/
def Obligations.LdiFromMemory : Prop :=
  (∀ r imm : Byte, encode (.ldi r imm) = [0b10000010#8, r, imm]) ∧
  ∀ s : State, s.run = .running → s.mem.read s.pc = .ok 0x82#8 →
    (∀ r imm : Byte, s.mem.read (s.pc + 1) = .ok r → s.mem.read (s.pc + 2) = .ok imm →
      (∀ h : r.toNat < 8, step s = .next { s with regs := s.regs.set r.toNat imm, pc := s.pc + 3 }) ∧
      (8 ≤ r.toNat → step s = .next { s with run := .faulted .outOfBounds })) ∧
    (s.pc = 254 ∨ s.pc = 255 → step s = .next { s with run := .faulted .outOfBounds }) ∧
    (∀ (r imm : Byte) (written : Vector Bool 8), s.mem.read (s.pc + 1) = .ok r → s.mem.read (s.pc + 2) = .ok imm →
      ∀ h : r.toNat < 8, ∃ t : Tracked, stepTracked { machine := s, written := written } = .next t ∧
        t.written[r.toNat] = true)

/-- 41_instructions.md section 2 (PRN), in both modes of `REG_INIT_MODE` (92_eei_decisions.md D4; log entries 1 and 2):
the encoding of PRN, and a step on one: the value emitted, a bad register index, an operand past the end of memory, and,
in the mode `unwritten`, a register nothing has written. -/
def Obligations.PrnFromMemory : Prop :=
  (∀ r : Byte, encode (.prn r) = [0b01000111#8, r]) ∧
  (∀ s : State, s.run = .running → s.mem.read s.pc = .ok 0x47#8 →
    (∀ r : Byte, s.mem.read (s.pc + 1) = .ok r →
      (∀ h : r.toNat < 8, step s = .next { s with out := s.out ++ [s.regs[r.toNat]], pc := s.pc + 2 }) ∧
      (8 ≤ r.toNat → step s = .next { s with run := .faulted .outOfBounds })) ∧
    (s.pc = 255 → step s = .next { s with run := .faulted .outOfBounds })) ∧
  (∀ (t : Tracked) (r : Byte), t.machine.run = .running → t.machine.mem.read t.machine.pc = .ok 0x47#8 →
    t.machine.mem.read (t.machine.pc + 1) = .ok r →
      ∀ h : r.toNat < 8, t.written[r.toNat] = false → stepTracked t = .fault (.unwrittenRegisterRead r))

/-- 41_instructions.md R145: the encoding of MUL, and a step on one: the product modulo 256 of the old values, a bad
register index, an operand past the end of memory. -/
def Obligations.MulFromMemory : Prop :=
  (∀ a b : Byte, encode (.mul a b) = [0b10100010#8, a, b]) ∧
  ∀ s : State, s.run = .running → s.mem.read s.pc = .ok 0xA2#8 →
    (∀ a b : Byte, s.mem.read (s.pc + 1) = .ok a → s.mem.read (s.pc + 2) = .ok b →
      (∀ (ha : a.toNat < 8) (hb : b.toNat < 8), step s = .next { s with
        regs := s.regs.set a.toNat (BitVec.ofNat 8 (s.regs[a.toNat].toNat * s.regs[b.toNat].toNat % 256)),
        pc := s.pc + 3 }) ∧
      (8 ≤ a.toNat ∨ 8 ≤ b.toNat → step s = .next { s with run := .faulted .outOfBounds })) ∧
    (s.pc = 254 ∨ s.pc = 255 → step s = .next { s with run := .faulted .outOfBounds })

/-! ## Frames -/

/-- 20_memory.md section 1 (R54): no instruction, and no step, changes a byte of memory. -/
def Obligations.MemoryNeverWritten : Prop :=
  (∀ (i : Instr) (s t : State), exec i s = .next t → ∀ a, t.mem.read a = s.mem.read a) ∧
  (∀ s t : State, step s = .next t → ∀ a, t.mem.read a = s.mem.read a)

/-- 10_state.md section 1 (R24, the column of writes): HLT and PRN leave every register as it was; LDI leaves every one
but its `r`, MUL every one but its `a`. -/
def Obligations.RegistersWrittenAsListed : Prop :=
  (∀ s t : State, exec .hlt s = .next t → t.regs = s.regs) ∧
  (∀ (r : Byte) (s t : State), exec (.prn r) s = .next t → t.regs = s.regs) ∧
  (∀ (r imm : Byte) (s t : State), exec (.ldi r imm) s = .next t →
    ∀ j, j ≠ r → regGet t.regs j = regGet s.regs j) ∧
  (∀ (a b : Byte) (s t : State), exec (.mul a b) s = .next t →
    ∀ j, j ≠ a → regGet t.regs j = regGet s.regs j)

/-- 10_state.md section 1 (R24, the column of reads): two states that differ only in registers an instruction does not
read give next states that agree on everything but registers the instruction does not write, and in those the two keep
what they held. -/
def Obligations.RegistersReadAsListed : Prop :=
  ∀ (i : Instr) (s : State) (regs : RegFile) (t : State),
    (∀ r, i = .prn r → regGet regs r = regGet s.regs r) →
    (∀ a b, i = .mul a b → regGet regs a = regGet s.regs a ∧ regGet regs b = regGet s.regs b) →
    exec i s = .next t →
    ∃ regs', exec i { s with regs := regs } = .next { t with regs := regs' } ∧
      ∀ j, regGet regs' j = regGet t.regs j ∨
        (regGet regs' j = regGet regs j ∧ regGet t.regs j = regGet s.regs j)

/-- 10_state.md section 4 (R33): only PRN appends to the output, and it appends the one value of its register; nothing
emitted is ever changed. -/
def Obligations.OutputOnlyByPrn : Prop :=
  (∀ (i : Instr) (s t : State), exec i s = .next t → (∀ r, i ≠ .prn r) → t.out = s.out) ∧
  (∀ (r : Byte) (s t : State), exec (.prn r) s = .next t →
    t.out = s.out ∧ t.run = .faulted .outOfBounds ∨ ∃ v, regGet s.regs r = .ok v ∧ t.out = s.out ++ [v]) ∧
  (∀ s t : State, step s = .next t → t.out = s.out ∨
    ∃ r v, fetchInstr s = .ok (.prn r) ∧ regGet s.regs r = .ok v ∧ t.out = s.out ++ [v])

/-- 10_state.md section 3 (R31, R32): the frame of the run state. An instruction leaves it as it was unless it is HLT,
which halts, or it faults OutOfBounds; HLT never faults. -/
def Obligations.RunStateFrame : Prop :=
  ∀ (i : Instr) (s t : State), exec i s = .next t →
    (i ≠ .hlt → t.run = s.run ∨ t.run = .faulted .outOfBounds) ∧ (i = .hlt → t.run = .halted)

/-! ## The step -/

/-- 42_execution_engine.md section 4 (R176): where the bytes at the pc decode, a step from Running is `exec` of the
decoded instruction. The advance of the pc and the halt are part of `exec`. Every instruction is covered, well-formed
(its register indices valid) or not. -/
def Obligations.StepRunsDecoded : Prop :=
  ∀ (s : State) (i : Instr) (rest : List Byte), s.run = .running →
    decode (bytesAt s.mem s.pc 3) = .ok (i, rest) → step s = exec i s

/-- 60_exceptions.md section 2 (R206), 30_encoding.md section 4 (R88): where the bytes at the pc do not decode, a step
from Running enters UnknownOpcode if there is an opcode byte outside the table, and OutOfBounds if a byte is missing. -/
def Obligations.StepFaultsOnUndecodable : Prop :=
  ∀ s : State, s.run = .running →
    (decode (bytesAt s.mem s.pc 3) = .error .noOpcode → step s = .next { s with run := .faulted .outOfBounds }) ∧
    (∀ op, decode (bytesAt s.mem s.pc 3) = .error (.unknownOpcode op) →
      step s = .next { s with run := .faulted .unknownOpcode }) ∧
    (∀ kind, decode (bytesAt s.mem s.pc 3) = .error (.missingOperand kind) →
      step s = .next { s with run := .faulted .outOfBounds })

/-- 60_exceptions.md section 2 (R206), 42_execution_engine.md sections 2 to 4: the checks of a step in their order, down
to the instruction's effect. -/
def Obligations.StepChecksInOrder : Prop :=
  ∀ s : State, s.run = .running →
    step s =
      if 256 ≤ s.pc then .next { s with run := .faulted .outOfBounds }
      else match decodeOpcode (s.mem.lookup s.pc) with
        | none => .next { s with run := .faulted .unknownOpcode }
        | some (kind, n) =>
          if 256 ≤ s.pc + n then .next { s with run := .faulted .outOfBounds }
          else exec (kind.build (s.mem.lookup (s.pc + 1)) (s.mem.lookup (s.pc + 2))) s

/-- 42_execution_engine.md section 4 (R178): in Halted and Faulted there is no step. That the model says so by the fault
`terminal` is its own choice, log entry 3. -/
def Obligations.TerminalHasNoStep : Prop :=
  ∀ s : State, s.run ≠ .running → step s = .fault .terminal

/-- 42_execution_engine.md section 4 (R182, R183): from Running there is always a next state. -/
def Obligations.RunningAlwaysSteps : Prop :=
  ∀ s : State, s.run = .running → ∃ t, step s = .next t

/-- 42_execution_engine.md section 4 (R177), 60_exceptions.md section 2 (R205): a step that enters a fault changes nothing
but the run state. 92_eei_decisions.md D5 is the spec's own choice. -/
def Obligations.FaultsArePrecise : Prop :=
  ∀ (s t : State) (k : FaultKind), step s = .next t → t.run = .faulted k → t = { s with run := .faulted k }

/-- 60_exceptions.md section 1 (R201, which the spec derives): a step enters OutOfBounds in exactly the listed cases. -/
def Obligations.OutOfBoundsExactly : Prop :=
  ∀ s : State, s.run = .running →
    ((∃ t, step s = .next t ∧ t.run = .faulted .outOfBounds) ↔ s.outOfBoundsCause)

/-- 60_exceptions.md R202: a step enters UnknownOpcode exactly where the opcode byte, at 255 or below, is none of the
four, the byte `0x00` included, and it emits nothing. -/
def Obligations.UnknownOpcodeExactly : Prop :=
  ∀ s : State, s.run = .running →
    ((∃ t, step s = .next t ∧ t.run = .faulted .unknownOpcode) ↔
      ∃ op, s.pc ≤ 255 ∧ s.mem.read s.pc = .ok op ∧ op ≠ 0x01#8 ∧ op ≠ 0x47#8 ∧ op ≠ 0x82#8 ∧ op ≠ 0xA2#8) ∧
    (∀ t, step s = .next t → t.run = .faulted .unknownOpcode → t.out = s.out) ∧
    (s.pc ≤ 255 → s.mem.read s.pc = .ok 0x00#8 → step s = .next { s with run := .faulted .unknownOpcode })

/-- 60_exceptions.md R203: the alu_unit raises UnsupportedOperation at its own interface, and no step enters it. -/
def Obligations.UnsupportedOperationUnreached : Prop :=
  (∃ op a b regs, aluUnit op a b regs = .error .unsupportedOperation) ∧
  ∀ s t : State, step s = .next t → t.run ≠ .faulted .unsupportedOperation

/-- 42_execution_engine.md section 3 (R175), 10_state.md section 2 (R26): the pc after a step is the pc before it plus
the width of the instruction fetched, 1 for HLT, 2 for PRN, 3 for LDI and MUL; a step that faults leaves it. -/
def Obligations.PcAdvancesByWidth : Prop :=
  ∀ s t : State, step s = .next t →
    (∃ k, t.run = .faulted k ∧ t.pc = s.pc) ∨
    (∃ i, fetchInstr s = .ok i ∧ t.pc = s.pc + i.width ∧
      i.width = (match i with | .hlt => 1 | .prn _ => 2 | .ldi _ _ => 3 | .mul _ _ => 3))

/-- 10_state.md R32: only Running has steps; they lead to Running, to Halted by HLT, or to a fault; and no move of the
host but a reset leaves Halted or Faulted, which a reset always does. -/
def Obligations.RunStateMovesOutOfRunning : Prop :=
  (∀ s t : State, step s = .next t → s.run = .running ∧
    (t.run = .running ∨ (t.run = .halted ∧ fetchInstr s = .ok .hlt) ∨ ∃ k, t.run = .faulted k)) ∧
  (∀ (x y : Session) (mv : Move), x.machine.run ≠ .running → x.perform mv = some y →
    mv = .reset ∨ y.machine.run = x.machine.run) ∧
  (∀ x : Session, ∃ y, x.perform .reset = some y ∧ y.machine.run = .running)

/-! ## Whole-machine claims -/

/-- 10_state.md section 2 (R27), 20_memory.md section 1, 41_instructions.md section 2, 60_exceptions.md section 1: every
step keeps the invariant: memory canonical, the pc at most 256, a Halted machine just past its HLT, a Faulted one still
at the cause of its fault, and no machine in UnsupportedOperation. -/
def Obligations.StepKeepsInvariant : Prop :=
  ∀ s t : State, s.inv → step s = .next t → t.inv

/-- 10_state.md section 7: the invariant holds after reset, whatever the registers hold. -/
def Obligations.ResetMeetsInvariant : Prop :=
  State.reset.inv ∧ ∀ init : RegFile, (State.resetWith init).inv

/-- 70_reset_and_hazards.md section 2: a load into a Running machine keeps the invariant. -/
def Obligations.LoadKeepsInvariant : Prop :=
  ∀ (s t : State) (bytes : List Byte), s.inv → s.run = .running → load s bytes = .ok t → t.inv

/-- 42_execution_engine.md section 4 (R180, which the spec derives): from every Running state, reachable or not, at most
half the bytes left before address 256, plus one, steps lead to Halted or Faulted; from pc 0 that is 129. -/
def Obligations.EveryRunEnds : Prop :=
  ∀ s : State, s.run = .running →
    ∃ n, n ≤ (256 - s.pc) / 2 + 1 ∧ ∃ t : State, Host.Core.run core n s = .next t ∧ t.run ≠ .running

/-- 42_execution_engine.md section 4 (R179, R180): run-to-completion gives a terminal state, the one that single steps
reach within 129 of them, and does nothing in a terminal state. -/
def Obligations.RunToEndIsTerminal : Prop :=
  ∀ s : State, (runToEnd s).run ≠ .running ∧
    (∃ n, n ≤ 129 ∧ Host.Core.run core n s = .next (runToEnd s)) ∧
    (s.run ≠ .running → runToEnd s = s)

/-! ## Reset -/

/-- 10_state.md section 7, 70_reset_and_hazards.md section 1: what a reset leaves, for every `REG_INIT`: the spec's
values, and the registers as `REG_INIT` gives them; and the host's reset of any session leaves that same machine, with
the model's `REG_INIT` (log entry 1), ready for a load. 92_eei_decisions.md D14 is the spec's own choice. -/
def Obligations.ResetState : Prop :=
  (∀ init : RegFile, (∀ a, a < 256 → (State.resetWith init).mem.read a = .ok 0x00#8) ∧
    (State.resetWith init).regs = init ∧ (State.resetWith init).pc = 0 ∧
    (State.resetWith init).run = .running ∧ (State.resetWith init).out = []) ∧
  (∀ x : Session, ∃ y, x.perform .reset = some y ∧ y.phase = .ready ∧
    (∀ a, a < 256 → y.machine.mem.read a = .ok 0x00#8) ∧ y.machine.regs = Config.regInit ∧ y.machine.pc = 0 ∧
    y.machine.run = .running ∧ y.machine.out = [])

/-- The model's choice of `REG_INIT`, log entry 1 (10_state.md section 7 leaves it open): every register holds zero in
`State.reset`, and everything else is as after any reset. -/
def Obligations.ResetRegistersChosenZero : Prop :=
  (∃ init, State.reset = State.resetWith init) ∧
  ∀ i : Byte, i.toNat < 8 → regGet State.reset.regs i = .ok 0x00#8

/-- 95_test_vectors.md section 2.1 (V-M9), 70_reset_and_hazards.md section 2: with nothing loaded, the first step faults
UnknownOpcode at pc 0, for every `REG_INIT`. -/
def Obligations.EmptyMachineFaultsFirst : Prop :=
  ∀ init : RegFile, step (State.resetWith init) = .next { State.resetWith init with run := .faulted .unknownOpcode }

/-! ## The mode `REG_INIT_MODE = unwritten` -/

/-- 60_exceptions.md section 1 (R204), 10_state.md section 1 (R22), 92_eei_decisions.md D4: the model fault
UnwrittenRegisterRead(i) is raised exactly where PRN or MUL is about to read the valid register i and nothing has written
it; MUL reads `a` first. The mode is a layer over `step`, log entry 2. -/
def Obligations.UnwrittenReadExactly : Prop :=
  ∀ (t : Tracked) (r : Byte), t.machine.run = .running →
    (stepTracked t = .fault (.unwrittenRegisterRead r) ↔ t.unwrittenReadCause r)

/-- 42_execution_engine.md section 4 (R183), 92_eei_decisions.md D4: from Running, the mode `unwritten` answers a next
state unless it is about to read a register nothing has written; that next state is the step of the machine, and a
register is marked afterwards exactly if it was marked before or the step wrote it. -/
def Obligations.TrackedStepIsStep : Prop :=
  (∀ t : Tracked, t.machine.run = .running → (∀ r, ¬ t.unwrittenReadCause r) → ∃ u, stepTracked t = .next u) ∧
  ∀ t u : Tracked, stepTracked t = .next u →
    step t.machine = .next u.machine ∧
    ∀ j : Fin 8, u.written[j] = true ↔
      (t.written[j] = true ∨ ∃ (r imm : Byte), fetchInstr t.machine = .ok (.ldi r imm) ∧ r.toNat = j.val)

/-- 92_eei_decisions.md D4, 70_reset_and_hazards.md section 2 (R243): in the mode `unwritten` a step answers alike for two
machines that differ only in registers nothing has written, and keeps them so. -/
def Obligations.UnwrittenContentsUnseen : Prop :=
  ∀ t u : Tracked, t.agree u →
    (∀ t', stepTracked t = .next t' → ∃ u', stepTracked u = .next u' ∧ t'.agree u') ∧
    (∀ f, stepTracked t = .fault f → stepTracked u = .fault f)

/-- 70_reset_and_hazards.md section 2 (R243), 92_eei_decisions.md D4: a program that the mode `unwritten` runs for n steps
without a model fault runs the same for n steps of the machine itself under every `REG_INIT`: the same pc, run state,
output and memory, and the same value in every register it has written. -/
def Obligations.RunIndependentOfRegInit : Prop :=
  ∀ (bytes : List Byte) (n : Nat) (init₁ init₂ : RegFile) (s₁ s₂ : State) (t : Tracked),
    load (State.resetWith init₁) bytes = .ok s₁ → load (State.resetWith init₂) bytes = .ok s₂ →
    Host.Core.run trackedCore n { machine := s₁, written := Vector.replicate 8 false } = .next t →
    ∃ u : State, Host.Core.run core n s₂ = .next u ∧
      u.pc = t.machine.pc ∧ u.run = t.machine.run ∧ u.out = t.machine.out ∧ u.mem = t.machine.mem ∧
      ∀ j : Fin 8, t.written[j] = true → u.regs[j] = t.machine.regs[j]

/-! ## The run state register and the host -/

/-- 10_state.md section 3 (R31), 60_exceptions.md section 1 (R200): the binary encoding of the run state; no two run
states share one, and the state field is never `11`. 92_eei_decisions.md D11 is the spec's own choice. -/
def Obligations.RunStateEncoding : Prop :=
  RunState.encode .running = 0b0000#4 ∧ RunState.encode .halted = 0b0001#4 ∧
  RunState.encode (.faulted .outOfBounds) = 0b0110#4 ∧
  RunState.encode (.faulted .unsupportedOperation) = 0b1010#4 ∧
  RunState.encode (.faulted .unknownOpcode) = 0b1110#4 ∧
  (∀ p q : RunState, p.encode = q.encode → p = q) ∧
  (∀ p : RunState, p.encode.extractLsb' 0 2 ≠ 0b11#2)

/-- 60_exceptions.md section 5 (R221), 70_reset_and_hazards.md section 2 (R248): once a step has run, no load is allowed,
and until a reset no move but step and run changes anything; a step or a run is what brings the phase about.
92_eei_decisions.md D20 is the spec's own choice. -/
def Obligations.HostWritesNothingDuringRun : Prop :=
  (∀ x y : Session, x.perform .step = some y → y.phase = .stepped ∧ step x.machine = .next y.machine) ∧
  (∀ x y : Session, x.perform .run = some y → y.phase = .stepped ∧ y.machine = runToEnd x.machine) ∧
  (∀ x : Session, x.phase = .stepped →
    (∀ bytes, x.perform (.load bytes) = none) ∧ (∀ path file, x.perform (.loadFile path file) = none) ∧
    ∀ mv y, x.perform mv = some y → mv = .reset ∨ mv = .step ∨ mv = .run ∨ y = x)

/-- 60_exceptions.md section 5 (R221): the moves that are allowed and what they give. Before the first step a load of at
most 256 bytes, or of a file that loads; while Running, unless a load has failed, a step and a run; at any time stop and
the reads, which change nothing. 92_eei_decisions.md D20 is the spec's own choice. -/
def Obligations.HostMovesAllowed : Prop :=
  ∀ x : Session,
    (x.phase = .ready → ∀ bytes : List Byte, bytes.length ≤ 256 → ∃ s, load x.machine bytes = .ok s ∧
      x.perform (.load bytes) = some { machine := s, phase := .ready }) ∧
    (x.phase = .ready → ∀ path file s, loadFile x.machine path file = .ok s →
      x.perform (.loadFile path file) = some { machine := s, phase := .ready }) ∧
    (x.phase ≠ .loadFailed → x.machine.run = .running →
      (∃ s, step x.machine = .next s ∧ x.perform .step = some { machine := s, phase := .stepped }) ∧
      x.perform .run = some { machine := runToEnd x.machine, phase := .stepped }) ∧
    x.perform .stop = some x ∧ x.perform .readState = some x ∧ x.perform .readOutput = some x

/-- 60_exceptions.md section 6 (R228), 70_reset_and_hazards.md section 2 (R247), 95_test_vectors.md P12: a loader error,
of a file or of more than 256 bytes given directly, leaves the machine as it was, and no step and no run is allowed
after it. 92_eei_decisions.md D13 is the spec's own choice; log entry 8 is the model's. -/
def Obligations.NoStepAfterLoaderError : Prop :=
  ∀ x : Session, x.phase = .ready →
    (∀ path file e, loadFile x.machine path file = .error e →
      ∃ y, x.perform (.loadFile path file) = some y ∧ y.machine = x.machine ∧
        y.perform .step = none ∧ y.perform .run = none) ∧
    (∀ bytes : List Byte, 256 < bytes.length →
      ∃ y, x.perform (.load bytes) = some y ∧ y.machine = x.machine ∧
        y.perform .step = none ∧ y.perform .run = none)

/-- 60_exceptions.md section 6 (R228): the loader's three errors and when each arises: no file, with its path; a line
that does not parse; more than 256 bytes. Otherwise the bytes are loaded. Log entry 7: a bad line is reported before an
overflow. -/
def Obligations.LoaderErrorsExactly : Prop :=
  ∀ (s : State) (path : List Char),
    loadFile s path none = .error (.fileNotFound path) ∧
    ∀ text : List Line,
      (loadFile s path (some text) = .error .parseError ↔ ∃ line ∈ text, parseLine line = .error .parseError) ∧
      (loadFile s path (some text) = .error .overflow ↔
        ∃ bytes, parseText text = .ok bytes ∧ 256 < bytes.length) ∧
      (∀ bytes, parseText text = .ok bytes → bytes.length ≤ 256 → ∃ t, loadFile s path (some text) = .ok t ∧
        load s bytes = .ok t)

/-- 60_exceptions.md R225. -/
def Obligations.CommentsDiscarded : Prop :=
  ∀ pre rest : Line, '#' ∉ pre →
    stripComment (pre ++ '#' :: rest) = pre ∧ parseLine (pre ++ '#' :: rest) = parseLine pre

/-- 60_exceptions.md section 6 (R226): whitespace around a line's text changes nothing, and a line of whitespace alone
contributes nothing. Which characters are whitespace is the model's choice, log entry 5. -/
def Obligations.SurroundingSpaceTrimmed : Prop :=
  ∀ before text after : Line, (∀ c ∈ before, c.isWhitespace = true) → (∀ c ∈ after, c.isWhitespace = true) →
    '#' ∉ text → parseLine (before ++ text ++ after) = parseLine text ∧ parseLine before = .ok []

/-- 60_exceptions.md section 6 (R227): a literal parses exactly if it is one or more of `0` and `1` with a value, read in
base 2, of at most 255; leading zeros are allowed; everything else is LoaderParseError. 92_eei_decisions.md D12 is the
spec's own choice. -/
def Obligations.LiteralsAreBinaryBytes : Prop :=
  ∀ text : Line,
    (∀ v : Byte, parseByte text = .ok v ↔ text ≠ [] ∧ (∀ c ∈ text, c = '0' ∨ c = '1') ∧
      text.foldl (fun acc c => 2 * acc + (if c = '1' then 1 else 0)) 0 = v.toNat) ∧
    (∀ e, parseByte text = .error e → e = .parseError)

/-- 60_exceptions.md section 5 (R224): each byte is rendered as its decimal numeral, at least one digit, digits only and
without leading zeros; an empty output renders to nothing, and the lines follow one another in emission order. -/
def Obligations.OutputRendered : Prop :=
  (∀ v : Byte, decimal v ≠ [] ∧ (decimal v).all Char.isDigit = true ∧
    (decimal v).foldl (fun acc c => 10 * acc + (c.toNat - 48)) 0 = v.toNat ∧
    ((decimal v).head? = some '0' → decimal v = ['0'])) ∧
  (∀ lineEnd : List Char, renderOutput lineEnd [] = []) ∧
  (∀ (lineEnd : List Char) (out : List Byte) (v : Byte),
    renderOutput lineEnd (out ++ [v]) = renderOutput lineEnd out ++ decimal v ++ lineEnd)

/-- 60_exceptions.md section 6 (R229): with statuses as the spec asks for, a loader error and a core fault exit with
distinct non-zero statuses. -/
def Obligations.ExitStatusesDistinct : Prop :=
  ∀ (c : Config.ExitStatuses) (x y : Session) (k : FaultKind), Config.exitStatusesOk c = true →
    x.phase = .loadFailed → y.phase ≠ .loadFailed → y.machine.run = .faulted k →
    exitStatus c x ≠ exitStatus c y ∧ exitStatus c x ≠ some 0 ∧ exitStatus c y ≠ some 0 ∧
      exitStatus c x ≠ none ∧ exitStatus c y ≠ none
end

