-- ==== Sys2Proof/Laws/Decode.lean ====
section
/-! SUPPORT. The decoder and the opcode table. -/

namespace Sys2Proof

@[simp] theorem Kind.operandBytes_hlt : Kind.operandBytes .hlt = 0 := rfl
@[simp] theorem Kind.operandBytes_ldi : Kind.operandBytes .ldi = 2 := rfl
@[simp] theorem Kind.operandBytes_prn : Kind.operandBytes .prn = 1 := rfl
@[simp] theorem Kind.operandBytes_mul : Kind.operandBytes .mul = 2 := rfl

/-- The table's rows are the encoding and operand columns of the four kinds. -/
theorem opcodeTable_rows :
    opcodeTable = [Kind.hlt, .ldi, .prn, .mul].map (fun kind => ⟨kind, kind.opcode, kind.operandBytes⟩) := rfl

/-- The opcodes of the table's rows are distinct. -/
theorem opcodeTable_distinct : (opcodeTable.map (·.opcode)).Nodup := by decide

/-- The decoder as R86 writes it. -/
theorem decodeOpcode_eq (op : Byte) :
    decodeOpcode op =
      if op = 0x01#8 then some (.hlt, 0) else if op = 0x82#8 then some (.ldi, 2)
      else if op = 0x47#8 then some (.prn, 1) else if op = 0xA2#8 then some (.mul, 2) else none := by
  simp only [decodeOpcode, opcodeTable, List.find?_cons]
  by_cases h1 : op = 0x01#8
  · subst h1; rfl
  by_cases h2 : op = 0x82#8
  · subst h2; rfl
  by_cases h3 : op = 0x47#8
  · subst h3; rfl
  by_cases h4 : op = 0xA2#8
  · subst h4; rfl
  have e1 : ((0b00000001#8 : Byte) == op) = false := beq_eq_false_iff_ne.2 fun h => h1 h.symm
  have e2 : ((0b10000010#8 : Byte) == op) = false := beq_eq_false_iff_ne.2 fun h => h2 h.symm
  have e3 : ((0b01000111#8 : Byte) == op) = false := beq_eq_false_iff_ne.2 fun h => h3 h.symm
  have e4 : ((0b10100010#8 : Byte) == op) = false := beq_eq_false_iff_ne.2 fun h => h4 h.symm
  simp only [e1, e2, e3, e4, Option.map_none, if_neg h1, if_neg h2, if_neg h3, if_neg h4, List.find?_nil]

/-- Everything the opcode decoder can answer. -/
theorem decodeOpcode_eq_some (op : Byte) (kind : Kind) (n : Nat) :
    decodeOpcode op = some (kind, n) ↔
      op = kind.opcode ∧ n = kind.operandBytes := by
  constructor
  · rw [decodeOpcode_eq]
    intro h
    split at h
    · cases h; exact ⟨‹_›, rfl⟩
    split at h
    · cases h; exact ⟨‹_›, rfl⟩
    split at h
    · cases h; exact ⟨‹_›, rfl⟩
    split at h
    · cases h; exact ⟨‹_›, rfl⟩
    · cases h
  · rintro ⟨rfl, rfl⟩
    cases kind <;> rfl

theorem decodeOpcode_eq_none (op : Byte) :
    decodeOpcode op = none ↔ op ≠ 0x01#8 ∧ op ≠ 0x82#8 ∧ op ≠ 0x47#8 ∧ op ≠ 0xA2#8 := by
  rw [decodeOpcode_eq]
  split
  · rename_i h; simp only [ne_eq, h, reduceCtorEq, false_iff]; decide
  split
  · rename_i h; simp only [ne_eq, h, reduceCtorEq, false_iff]; decide
  split
  · rename_i h; simp only [ne_eq, h, reduceCtorEq, false_iff]; decide
  split
  · rename_i h; simp only [ne_eq, h, reduceCtorEq, false_iff]; decide
  · rename_i h1 h2 h3 h4; exact ⟨fun _ => ⟨h1, h2, h3, h4⟩, fun _ => rfl⟩

/-- The opcode byte of an instruction gives its kind and its number of operand bytes. -/
theorem decodeOpcode_opcode (i : Instr) : decodeOpcode i.kind.opcode = some (i.kind, i.kind.operandBytes) := by
  cases i <;> rfl

end Sys2Proof
end

