-- ==== Sys2Proof/Laws/Memory.lean ====
section
/-! SUPPORT. The memory operations: a read after a write, and that each keeps the canonical form. -/

namespace Sys2Proof.Machine

open Sys2Proof

/-- An address below every listed one reads as `0x00`. -/
theorem Memory.lookup_below (m : Memory) (a : Nat) (h : ∀ c ∈ m, a < c.1) : Memory.lookup m a = 0x00#8 := by
  induction m with
  | nil => rfl
  | cons c rest ih =>
    have hc : a < c.1 := h c (by simp)
    have hne : c.1 ≠ a := by omega
    simp only [Memory.lookup, if_neg hne]
    exact ih fun d hd => h d (by simp [hd])

theorem Memory.wf_nil : Memory.wf [] := by simp [Memory.wf]

theorem Memory.wf_cons (c : Host.Cell) (m : Memory) :
    Memory.wf (c :: m) ↔ (∀ d ∈ m, c.1 < d.1) ∧ (c.1 < 256 ∧ c.2 ≠ 0x00#8) ∧ Memory.wf m := by
  simp only [Memory.wf, List.map_cons, List.pairwise_cons, List.mem_map, List.forall_mem_cons]
  constructor
  · rintro ⟨⟨h, hp⟩, hc, hr⟩
    exact ⟨fun d hd => h _ ⟨d, hd, rfl⟩, hc, hp, hr⟩
  · rintro ⟨h, hc, hp, hr⟩
    exact ⟨⟨by rintro _ ⟨d, hd, rfl⟩; exact h d hd, hp⟩, hc, hr⟩

theorem Memory.lookup_cons (key : Nat) (w : Byte) (rest : Memory) (b : Nat) :
    Memory.lookup ((key, w) :: rest) b = if b = key then w else Memory.lookup rest b := by
  simp [Memory.lookup, eq_comm]

/-- A store changes its own address and no other. -/
theorem Memory.lookup_store (m : Memory) (hm : m.wf) (a b : Nat) (v : Byte) :
    Memory.lookup (Memory.store m a v) b = if b = a then v else Memory.lookup m b := by
  induction m with
  | nil =>
    simp only [Memory.store]
    split
    · rename_i hv; rw [hv]; simp [Memory.lookup]
    · rw [Memory.lookup_cons]
  | cons c rest ih =>
    obtain ⟨key, w⟩ := c
    obtain ⟨habove, -, hrest⟩ := (Memory.wf_cons _ _).1 hm
    simp only [Memory.store]
    split
    · rename_i hlt
      split
      · rename_i hv
        have low : Memory.lookup ((key, w) :: rest) a = 0x00#8 := Memory.lookup_below _ a fun d hd => by
          rcases List.mem_cons.1 hd with rfl | hd
          · exact hlt
          · exact Nat.lt_trans hlt (habove d hd)
        split
        · rename_i hb; rw [hb, low, hv]
        · rfl
      · rw [Memory.lookup_cons]
    · split
      · rename_i heq
        subst heq
        split
        · rename_i hv
          rw [Memory.lookup_cons]
          split
          · rename_i hb; rw [hb, hv]; exact Memory.lookup_below _ _ habove
          · rfl
        · simp only [Memory.lookup_cons]; split <;> rfl
      · rename_i hlt hne
        simp only [Memory.lookup_cons, ih hrest]
        split
        · rename_i hb; rw [if_neg (by omega)]
        · rfl

theorem Memory.mem_store (m : Memory) (a : Nat) (v : Byte) (c : Host.Cell) (h : c ∈ Memory.store m a v) :
    c ∈ m ∨ c = (a, v) := by
  induction m with
  | nil =>
    simp only [Memory.store] at h
    split at h <;> simp_all
  | cons d rest ih =>
    simp only [Memory.store] at h
    split at h
    · split at h
      · exact .inl h
      · rcases List.mem_cons.1 h with rfl | h
        · exact .inr rfl
        · exact .inl h
    · split at h
      · split at h
        · exact .inl (List.mem_cons_of_mem _ h)
        · rcases List.mem_cons.1 h with rfl | h
          · exact .inr rfl
          · exact .inl (List.mem_cons_of_mem _ h)
      · rcases List.mem_cons.1 h with rfl | h
        · exact .inl (by simp)
        · exact (ih h).imp_left (List.mem_cons_of_mem _)

/-- A store below 256 keeps the canonical form. -/
theorem Memory.wf_store (m : Memory) (hm : m.wf) (a : Nat) (ha : a < 256) (v : Byte) : (Memory.store m a v).wf := by
  induction m with
  | nil =>
    simp only [Memory.store]
    split
    · exact Memory.wf_nil
    · rename_i hv; exact (Memory.wf_cons _ _).2 ⟨by simp, ⟨ha, hv⟩, Memory.wf_nil⟩
  | cons c rest ih =>
    obtain ⟨habove, hc, hrest⟩ := (Memory.wf_cons _ _).1 hm
    simp only [Memory.store]
    split
    · rename_i hlt
      split
      · exact hm
      · rename_i hv
        refine (Memory.wf_cons _ _).2 ⟨fun d hd => ?_, ⟨ha, hv⟩, hm⟩
        rcases List.mem_cons.1 hd with rfl | hd
        · exact hlt
        · exact Nat.lt_trans hlt (habove d hd)
    · split
      · rename_i heq
        split
        · exact hrest
        · rename_i hv; exact (Memory.wf_cons _ _).2 ⟨by simpa [heq] using habove, ⟨ha, hv⟩, hrest⟩
      · rename_i hlt hne
        refine (Memory.wf_cons _ _).2 ⟨fun d hd => ?_, hc, ih hrest⟩
        rcases Memory.mem_store _ _ _ _ hd with hd | rfl
        · exact habove d hd
        · simp only; omega

theorem Memory.read_eq_ok (m : Memory) (a : Nat) (v : Byte) :
    m.read a = .ok v ↔ a < 256 ∧ m.lookup a = v := by
  unfold Memory.read; split <;> simp_all

theorem Memory.read_eq_error (m : Memory) (a : Nat) (k : FaultKind) :
    m.read a = .error k ↔ 256 ≤ a ∧ k = .outOfBounds := by
  unfold Memory.read; split
  · simp; omega
  · simp; constructor
    · rintro rfl; exact ⟨by omega, rfl⟩
    · rintro ⟨-, rfl⟩; rfl

/-- Everything `MemWrite` can answer. -/
theorem Memory.write_eq_ok (m m' : Memory) (a : Nat) (v : Byte) :
    m.write a v = .ok m' ↔ a < 256 ∧ m' = Memory.store m a v := by
  unfold Memory.write; split <;> simp_all [eq_comm]

theorem Memory.wf_write (m m' : Memory) (hm : m.wf) (a : Nat) (v : Byte) (h : m.write a v = .ok m') : m'.wf := by
  obtain ⟨ha, rfl⟩ := (Memory.write_eq_ok ..).1 h
  exact Memory.wf_store m hm a ha v

theorem Memory.place_cons (m : Memory) (a : Nat) (v : Byte) (rest : List Byte) :
    m.place a (v :: rest) = Memory.place (if a < 256 then m.store a v else m) (a + 1) rest := by
  simp only [Memory.place, Memory.write]
  by_cases h : a < 256 <;> simp only [h, if_true, if_false]

/-- Placing bytes keeps the canonical form. -/
theorem Memory.wf_place (bytes : List Byte) (m : Memory) (hm : m.wf) (a : Nat) : (m.place a bytes).wf := by
  induction bytes generalizing m a with
  | nil => exact hm
  | cons v rest ih =>
    rw [Memory.place_cons]
    split
    · rename_i ha; exact ih _ (Memory.wf_store m hm a ha v) _
    · exact ih m hm _

/-- What an address holds after bytes are placed: the byte placed there, or what it held. -/
theorem Memory.lookup_place (bytes : List Byte) (m : Memory) (hm : m.wf) (a b : Nat) :
    (m.place a bytes).lookup b =
      if a ≤ b ∧ b < 256 then bytes.getD (b - a) (m.lookup b) else m.lookup b := by
  induction bytes generalizing m a with
  | nil => simp [Memory.place]
  | cons v rest ih =>
    rw [Memory.place_cons]
    by_cases ha : a < 256
    · rw [if_pos ha, ih _ (Memory.wf_store m hm a ha v), Memory.lookup_store m hm]
      by_cases hb : b = a
      · subst hb
        have : ¬ (b + 1 ≤ b) := by omega
        simp [this, ha]
      · by_cases hlt : a + 1 ≤ b ∧ b < 256
        · have h2 : a ≤ b ∧ b < 256 := by omega
          have h3 : b - a = (b - (a + 1)) + 1 := by omega
          rw [if_pos hlt, if_pos h2, if_neg hb, h3, List.getD_cons_succ]
        · have h2 : ¬ (a ≤ b ∧ b < 256) := by omega
          rw [if_neg hlt, if_neg h2, if_neg hb]
    · rw [if_neg ha, ih m hm]
      have h1 : ¬ (a + 1 ≤ b ∧ b < 256) := by omega
      have h2 : ¬ (a ≤ b ∧ b < 256) := by omega
      rw [if_neg h1, if_neg h2]

/-- Everything `load` can answer. -/
theorem load_eq_ok (s t : State) (bytes : List Byte) :
    load s bytes = .ok t ↔ bytes.length ≤ 256 ∧ t = { s with mem := s.mem.place 0 bytes } := by
  unfold load; split
  · simp; omega
  · simp [eq_comm]; intro _; omega

theorem wf_load (s t : State) (bytes : List Byte) (hs : s.mem.wf) (h : load s bytes = .ok t) : t.mem.wf := by
  obtain ⟨-, rfl⟩ := (load_eq_ok ..).1 h
  exact Memory.wf_place bytes s.mem hs 0

theorem wf_withFetchWord (s : State) (nbits w : Nat) (hs : s.mem.wf) : (s.withFetchWord nbits w).mem.wf :=
  Memory.wf_place _ s.mem hs _

theorem wf_resetWith (init : RegFile) : (State.resetWith init).mem.wf := Memory.wf_nil

theorem wf_reset : State.reset.mem.wf := wf_resetWith _

end Sys2Proof.Machine
end

