-- ==== Sys2Proof/Laws/Embedder.lean ====
section
/-! SUPPORT. The session after a load and after a reset. -/

namespace Sys2Proof.Machine

open Sys2Proof

@[simp] theorem Session.afterLoad_ok (x : Session) (s : State) :
    x.afterLoad (.ok s) = { machine := s, phase := .ready } := rfl

@[simp] theorem Session.afterLoad_error (x : Session) (e : LoaderError) :
    x.afterLoad (.error e) = { x with phase := .loadFailed } := rfl

@[simp] theorem Session.perform_reset (x : Session) : x.perform .reset = some Session.start := rfl

@[simp] theorem Session.start_machine : Session.start.machine = State.reset := rfl
@[simp] theorem Session.start_phase : Session.start.phase = .ready := rfl

/-- A load before the first step is a load of the machine. -/
theorem Session.perform_load_ready (x : Session) (hx : x.phase = .ready) (bytes : List Byte) :
    x.perform (.load bytes) = some (x.afterLoad (load x.machine bytes)) := by
  simp [Session.perform, hx]

theorem Session.perform_loadFile_ready (x : Session) (hx : x.phase = .ready) (path : List Char)
    (file : Option (List Line)) :
    x.perform (.loadFile path file) = some (x.afterLoad (loadFile x.machine path file)) := by
  simp [Session.perform, hx]

end Sys2Proof.Machine
end

