-- ==== Sys2Proof/Laws/PerInstr.lean ====
section
/-! SUPPORT. Families of statements about every instruction as syntax, one lemma per constructor. -/

namespace Sys2Proof.Laws.EncodedWidth

open Sys2Proof

/-- The encoding is the opcode byte and as many operand bytes as the decoder asks for after it (30_encoding.md R80). -/
def Statement (i : Instr) : Prop :=
  (encode i).length = i.width ∧ ∃ n, decodeOpcode ((encode i).headD 0) = some (i.kind, n) ∧ i.width = 1 + n

theorem hlt : Statement .hlt := ⟨rfl, 0, rfl, rfl⟩
theorem ldi (r imm : Byte) : Statement (.ldi r imm) := ⟨rfl, 2, rfl, rfl⟩
theorem prn (r : Byte) : Statement (.prn r) := ⟨rfl, 1, rfl, rfl⟩
theorem mul (a b : Byte) : Statement (.mul a b) := ⟨rfl, 2, rfl, rfl⟩

end Sys2Proof.Laws.EncodedWidth
end

