-- ==== Sys2Proof/Laws/Registers.lean ====
section
/-! SUPPORT. The register ports and the alu_unit: everything each can answer. -/

namespace Sys2Proof.Machine

open Sys2Proof

theorem regGet_eq_ok (regs : RegFile) (i v : Byte) :
    regGet regs i = .ok v ↔ ∃ h : i.toNat < 8, v = regs[i.toNat] := by
  unfold regGet; split <;> simp_all [eq_comm]

theorem regGet_eq_error (regs : RegFile) (i : Byte) (k : FaultKind) :
    regGet regs i = .error k ↔ 8 ≤ i.toNat ∧ k = .outOfBounds := by
  unfold regGet; split
  · simp; omega
  · simp only [Except.error.injEq]; constructor
    · rintro rfl; exact ⟨by omega, rfl⟩
    · rintro ⟨-, rfl⟩; rfl

theorem regSet_eq_ok (regs regs' : RegFile) (i : Byte) (v : Int) :
    regSet regs i v = .ok regs' ↔ ∃ h : i.toNat < 8, regs' = regs.set i.toNat (BitVec.ofInt 8 v) := by
  unfold regSet; split <;> simp_all [eq_comm]

theorem regSet_eq_error (regs : RegFile) (i : Byte) (v : Int) (k : FaultKind) :
    regSet regs i v = .error k ↔ 8 ≤ i.toNat ∧ k = .outOfBounds := by
  unfold regSet; split
  · simp; omega
  · simp only [Except.error.injEq]; constructor
    · rintro rfl; exact ⟨by omega, rfl⟩
    · rintro ⟨-, rfl⟩; rfl

/-- A byte written back unchanged: the port's wrap is the identity on a byte. -/
@[simp] theorem ofInt_toNat (v : Byte) : BitVec.ofInt 8 (v.toNat : Int) = v := by
  simp

/-- Everything an ALU operation that computes can answer with a register file. -/
theorem aluBinary_eq_ok (f : Nat → Nat → Nat) (a b : Byte) (regs regs' : RegFile) :
    aluBinary f a b regs = .ok regs' ↔
      ∃ (ha : a.toNat < 8) (hb : b.toNat < 8),
        regs' = regs.set a.toNat (BitVec.ofNat 8 (f regs[a.toNat].toNat regs[b.toNat].toNat)) := by
  by_cases ha : a.toNat < 8 <;> by_cases hb : b.toNat < 8 <;>
    simp [aluBinary, regGet, regSet, ha, hb, eq_comm]

/-- An ALU operation that computes faults exactly on an index of 8 or more. -/
theorem aluBinary_eq_error (f : Nat → Nat → Nat) (a b : Byte) (regs : RegFile) (k : FaultKind) :
    aluBinary f a b regs = .error k ↔ (8 ≤ a.toNat ∨ 8 ≤ b.toNat) ∧ k = .outOfBounds := by
  by_cases ha : a.toNat < 8 <;> by_cases hb : b.toNat < 8 <;>
    simp [aluBinary, regGet, regSet, ha, hb, eq_comm] <;> omega

end Sys2Proof.Machine
end

