-- ==== Sys2Proof/Laws/State.lean ====
section
/-! SUPPORT. One lemma per field per update of the state. -/

namespace Sys2Proof.Machine

open Sys2Proof

@[simp] theorem State.emit_mem (s : State) (v : Byte) : (s.emit v).mem = s.mem := rfl
@[simp] theorem State.emit_regs (s : State) (v : Byte) : (s.emit v).regs = s.regs := rfl
@[simp] theorem State.emit_pc (s : State) (v : Byte) : (s.emit v).pc = s.pc := rfl
@[simp] theorem State.emit_run (s : State) (v : Byte) : (s.emit v).run = s.run := rfl
@[simp] theorem State.emit_out (s : State) (v : Byte) : (s.emit v).out = s.out ++ [v] := rfl

@[simp] theorem State.raise_mem (s : State) (k : FaultKind) : (s.raise k).mem = s.mem := rfl
@[simp] theorem State.raise_regs (s : State) (k : FaultKind) : (s.raise k).regs = s.regs := rfl
@[simp] theorem State.raise_pc (s : State) (k : FaultKind) : (s.raise k).pc = s.pc := rfl
@[simp] theorem State.raise_run (s : State) (k : FaultKind) : (s.raise k).run = .faulted k := rfl
@[simp] theorem State.raise_out (s : State) (k : FaultKind) : (s.raise k).out = s.out := rfl

@[simp] theorem State.advance_mem (s : State) (n : Nat) : (s.advance n).mem = s.mem := rfl
@[simp] theorem State.advance_regs (s : State) (n : Nat) : (s.advance n).regs = s.regs := rfl
@[simp] theorem State.advance_pc (s : State) (n : Nat) : (s.advance n).pc = s.pc + 1 + n := rfl
@[simp] theorem State.advance_run (s : State) (n : Nat) : (s.advance n).run = s.run := rfl
@[simp] theorem State.advance_out (s : State) (n : Nat) : (s.advance n).out = s.out := rfl

@[simp] theorem State.halt_mem (s : State) : (s.halt).mem = s.mem := rfl
@[simp] theorem State.halt_regs (s : State) : (s.halt).regs = s.regs := rfl
@[simp] theorem State.halt_pc (s : State) : (s.halt).pc = s.pc := rfl
@[simp] theorem State.halt_run (s : State) : (s.halt).run = .halted := rfl
@[simp] theorem State.halt_out (s : State) : (s.halt).out = s.out := rfl

@[simp] theorem State.resetWith_mem (init : RegFile) : (State.resetWith init).mem = [] := rfl
@[simp] theorem State.resetWith_regs (init : RegFile) : (State.resetWith init).regs = init := rfl
@[simp] theorem State.resetWith_pc (init : RegFile) : (State.resetWith init).pc = 0 := rfl
@[simp] theorem State.resetWith_run (init : RegFile) : (State.resetWith init).run = .running := rfl
@[simp] theorem State.resetWith_out (init : RegFile) : (State.resetWith init).out = [] := rfl

@[simp] theorem State.withRegs_ok (s : State) (regs : RegFile) :
    s.withRegs (.ok regs) = .ok { s with regs := regs } := rfl

@[simp] theorem State.withRegs_error (s : State) (k : FaultKind) : s.withRegs (.error k) = .error k := rfl

@[simp] theorem State.withFetchWord_regs (s : State) (nbits w : Nat) : (s.withFetchWord nbits w).regs = s.regs := rfl
@[simp] theorem State.withFetchWord_pc (s : State) (nbits w : Nat) : (s.withFetchWord nbits w).pc = s.pc := rfl
@[simp] theorem State.withFetchWord_run (s : State) (nbits w : Nat) : (s.withFetchWord nbits w).run = .running := rfl
@[simp] theorem State.withFetchWord_out (s : State) (nbits w : Nat) : (s.withFetchWord nbits w).out = s.out := rfl

end Sys2Proof.Machine
end

