-- ==== Sys2Proof/Laws/Step.lean ====
section
/-! SUPPORT. What finishing an instruction, each instruction, the fetch and the step can answer. -/

namespace Sys2Proof.Machine

open Sys2Proof

/-- Finishing an instruction answers a next state and nothing else: the fault entered on the starting state, or the
effect with the pc advanced. -/
theorem finish_eq_next (s t : State) (n : Nat) (r : Except FaultKind State) :
    finish s n r = .next t ↔
      (∃ k, r = .error k ∧ t = s.raise k) ∨ (∃ s', r = .ok s' ∧ t = s'.advance n) := by
  cases r <;> simp [finish, eq_comm]

theorem execLdi_eq_next (r imm : Byte) (s t : State) :
    execLdi r imm s = .next t ↔
      (∃ h : r.toNat < 8, t = { s with regs := s.regs.set r.toNat imm, pc := s.pc + 3 }) ∨
      (8 ≤ r.toNat ∧ t = s.raise .outOfBounds) := by
  by_cases h : r.toNat < 8 <;> simp [execLdi, finish, State.writeReg, regSet, h, eq_comm, State.advance]
  all_goals omega

theorem execPrn_eq_next (r : Byte) (s t : State) :
    execPrn r s = .next t ↔
      (∃ h : r.toNat < 8, t = { s with out := s.out ++ [s.regs[r.toNat]], pc := s.pc + 2 }) ∨
      (8 ≤ r.toNat ∧ t = s.raise .outOfBounds) := by
  by_cases h : r.toNat < 8 <;> simp [execPrn, finish, regGet, h, eq_comm, State.advance, State.emit]
  all_goals omega

theorem execMul_eq_next (a b : Byte) (s t : State) :
    execMul a b s = .next t ↔
      (∃ (ha : a.toNat < 8) (hb : b.toNat < 8),
        t = { s with regs := s.regs.set a.toNat (s.regs[a.toNat] * s.regs[b.toNat]), pc := s.pc + 3 }) ∨
      ((8 ≤ a.toNat ∨ 8 ≤ b.toNat) ∧ t = s.raise .outOfBounds) := by
  simp only [execMul, aluApply, finish_eq_next]
  cases h : aluBinary (fun x y => x * y) a b s.regs with
  | error k =>
    obtain ⟨hab, rfl⟩ := (aluBinary_eq_error ..).1 h
    simp only [State.withRegs_error, Except.error.injEq, reduceCtorEq, false_and, exists_false, or_false,
      exists_eq_left']
    constructor
    · intro ht; exact .inr ⟨hab, ht⟩
    · rintro (⟨ha, hb, -⟩ | ⟨-, ht⟩)
      · omega
      · exact ht
  | ok regs =>
    obtain ⟨ha, hb, rfl⟩ := (aluBinary_eq_ok ..).1 h
    simp only [State.withRegs_ok, Except.ok.injEq, reduceCtorEq, false_and, exists_false, false_or, exists_eq_left',
      ha, hb, exists_true_left, State.advance, BitVec.mul_def]
    constructor
    · intro ht; exact .inl ht
    · rintro (ht | ⟨hab, -⟩)
      · exact ht
      · omega

theorem fetchOperand_eq_ok (m : Memory) (a : Nat) (wanted : Bool) (v : Byte) :
    fetchOperand m a wanted = .ok v ↔ if wanted then a < 256 ∧ m.lookup a = v else v = 0#8 := by
  cases wanted
  · simp only [fetchOperand, Bool.false_eq_true, if_false, Except.ok.injEq]; exact eq_comm
  · simp only [fetchOperand, if_true, Memory.read_eq_ok]

theorem fetchOperand_eq_error (m : Memory) (a : Nat) (wanted : Bool) (k : FaultKind) :
    fetchOperand m a wanted = .error k ↔ wanted = true ∧ 256 ≤ a ∧ k = .outOfBounds := by
  cases wanted <;> simp [fetchOperand, Memory.read_eq_error]

/-- `exec` answers a next state for every instruction in every state. -/
theorem exec_total (i : Instr) (s : State) : ∃ t, exec i s = .next t := by
  have finished : ∀ n r, ∃ t, finish s n r = .next t := fun n r => by cases r <;> exact ⟨_, rfl⟩
  cases i with
  | hlt => exact ⟨_, rfl⟩
  | ldi r imm => exact finished _ _
  | prn r => exact finished _ _
  | mul a b => exact finished _ _

/-- Everything the next state of an instruction can be: the fault OutOfBounds, which HLT never takes, or the
instruction's own effect. -/
theorem exec_cases (i : Instr) (s t : State) (h : exec i s = .next t) :
    (i ≠ .hlt ∧ t = s.raise .outOfBounds) ∨
    (i = .hlt ∧ t = (s.advance 0).halt) ∨
    (∃ r imm, ∃ _ : r.toNat < 8, i = .ldi r imm ∧ t = { s with regs := s.regs.set r.toNat imm, pc := s.pc + 3 }) ∨
    (∃ r, ∃ _ : r.toNat < 8, i = .prn r ∧ t = { s with out := s.out ++ [s.regs[r.toNat]], pc := s.pc + 2 }) ∨
    (∃ a b, ∃ (_ : a.toNat < 8) (_ : b.toNat < 8), i = .mul a b ∧
      t = { s with regs := s.regs.set a.toNat (s.regs[a.toNat] * s.regs[b.toNat]), pc := s.pc + 3 }) := by
  cases i with
  | hlt => cases h; exact .inr (.inl ⟨rfl, rfl⟩)
  | ldi r imm =>
    rcases (execLdi_eq_next ..).1 h with ⟨hr, ht⟩ | ⟨-, ht⟩
    · exact .inr (.inr (.inl ⟨r, imm, hr, rfl, ht⟩))
    · exact .inl ⟨by simp, ht⟩
  | prn r =>
    rcases (execPrn_eq_next ..).1 h with ⟨hr, ht⟩ | ⟨-, ht⟩
    · exact .inr (.inr (.inr (.inl ⟨r, hr, rfl, ht⟩)))
    · exact .inl ⟨by simp, ht⟩
  | mul a b =>
    rcases (execMul_eq_next ..).1 h with ⟨ha, hb, ht⟩ | ⟨-, ht⟩
    · exact .inr (.inr (.inr (.inr ⟨a, b, ha, hb, rfl, ht⟩)))
    · exact .inl ⟨by simp, ht⟩

/-- Everything the fetch can answer with an instruction: its opcode byte and its operand bytes stand at the pc, all of
them below 256. -/
theorem fetchInstr_ok (s : State) (i : Instr) (h : fetchInstr s = .ok i) :
    s.mem.lookup s.pc = i.kind.opcode ∧ s.pc + i.width ≤ 256 ∧
      i = i.kind.build (s.mem.lookup (s.pc + 1)) (s.mem.lookup (s.pc + 2)) := by
  unfold fetchInstr at h
  split at h
  · cases h
  · rename_i op hop
    obtain ⟨hpc, rfl⟩ := (Memory.read_eq_ok ..).1 hop
    split at h
    · cases h
    · rename_i kind n hd
      obtain ⟨hop, rfl⟩ := (decodeOpcode_eq_some ..).1 hd
      split at h
      · cases h
      · rename_i op1 h1
        have h1 := (fetchOperand_eq_ok ..).1 h1
        split at h
        · cases h
        · rename_i op2 h2
          have h2 := (fetchOperand_eq_ok ..).1 h2
          cases h
          cases kind <;> simp [Kind.build, Instr.kind, Instr.width] at h1 h2 ⊢ <;>
            simp [hop, h1, h2] <;> omega

/-- The fetch faults with OutOfBounds or UnknownOpcode and no other kind. -/
theorem fetchInstr_error (s : State) (k : FaultKind) (h : fetchInstr s = .error k) :
    k = .outOfBounds ∨ k = .unknownOpcode := by
  unfold fetchInstr at h
  split at h
  · cases h; exact .inl ((Memory.read_eq_error ..).1 ‹_›).2
  · split at h
    · cases h; exact .inr rfl
    · split at h
      · cases h; exact .inl ((fetchOperand_eq_error ..).1 ‹_›).2.2
      · split at h
        · cases h; exact .inl ((fetchOperand_eq_error ..).1 ‹_›).2.2
        · cases h

/-- Everything the next state of a step can be. -/
theorem step_cases (s t : State) (h : step s = .next t) :
    s.run = .running ∧
      ((∃ i, fetchInstr s = .ok i ∧ exec i s = .next t) ∨ (∃ k, fetchInstr s = .error k ∧ t = s.raise k)) := by
  unfold step at h
  cases hr : s.run <;> rw [hr] at h
  · refine ⟨rfl, ?_⟩
    cases hf : fetchInstr s <;> simp only [hf, Host.Outcome.next.injEq] at h
    · exact .inr ⟨_, rfl, h.symm⟩
    · exact .inl ⟨_, rfl, h⟩
  · cases h
  · cases h

/-- One more step of the machine's run. -/
theorem core_run_succ (n : Nat) (s : State) :
    Host.Core.run core (n + 1) s =
      match step s with
      | .next s' => Host.Core.run core n s'
      | .fault r => .fault r
      | .refused r => .refused r := by
  cases h : step s <;> simp [Host.Core.run, core, h]

/-- Everything a step from Running can answer. -/
theorem step_running (s : State) (hs : s.run = .running) :
    (∃ i, fetchInstr s = .ok i ∧ step s = exec i s) ∨
    (∃ k, fetchInstr s = .error k ∧ step s = .next (s.raise k)) := by
  unfold step
  rw [hs]
  cases h : fetchInstr s <;> simp

end Sys2Proof.Machine
end

