-- ==== Sys2Proof/Laws/Unwritten.lean ====
section
/-! SUPPORT. The marks of the mode `unwritten`. -/

namespace Sys2Proof.Machine

open Sys2Proof

/-- No unmarked read ahead: the first index is out of range, or it is marked and the rest has none. -/
theorem firstUnwritten_cons_eq_none (written : Vector Bool 8) (i : Byte) (rest : List Byte) :
    firstUnwritten written (i :: rest) = none ↔
      8 ≤ i.toNat ∨ ∃ _ : i.toNat < 8, written[i.toNat] = true ∧ firstUnwritten written rest = none := by
  by_cases h : i.toNat < 8
  · by_cases hw : written[i.toNat] = true <;> simp [firstUnwritten, h, hw]
  · simp [firstUnwritten, h]; omega

@[simp] theorem markWritten_none (written : Vector Bool 8) : markWritten written none = written := rfl

/-- A mark is added for the index and no other. -/
theorem markWritten_some_getElem (written : Vector Bool 8) (i : Byte) (j : Fin 8) :
    (markWritten written (some i))[j] = (decide (i.toNat = j.val) || written[j]) := by
  by_cases h : i.toNat < 8
  · simp only [markWritten, h, dif_pos, Fin.getElem_fin, Vector.getElem_set]
    by_cases hj : i.toNat = j.val <;> simp [hj]
  · have hj : i.toNat ≠ j.val := by omega
    simp [markWritten, h, hj]

/-- One more step of a run in this mode. -/
theorem trackedCore_run_succ (n : Nat) (t : Tracked) :
    Host.Core.run trackedCore (n + 1) t =
      match stepTracked t with
      | .next t' => Host.Core.run trackedCore n t'
      | .fault r => .fault r
      | .refused r => .refused r := by
  cases h : stepTracked t <;> simp [Host.Core.run, trackedCore, h]

end Sys2Proof.Machine
end

