-- ==== Sys2Proof/Machine/Assembly.lean ====
section
/-! DEFINITION. The spelling of an instruction in the spec's examples (30_encoding.md R91). The hardware has no assembler
and no pseudo-instruction (R92), and the loader does not read this spelling (R93). -/

namespace Sys2Proof.Machine

open Sys2Proof

/-- `R<n>`, the name of register index n; indices of 8 or more have a name too. -/
def registerName (i : Byte) : List Char :=
  'R' :: decimal i

/-- The four forms of R91. -/
def spelling : Instr → List Char
  | .hlt => ['H', 'L', 'T']
  | .ldi r imm => ['L', 'D', 'I', ' '] ++ registerName r ++ [','] ++ decimal imm
  | .prn r => ['P', 'R', 'N', ' '] ++ registerName r
  | .mul a b => ['M', 'U', 'L', ' '] ++ registerName a ++ [','] ++ registerName b

end Sys2Proof.Machine
end

