-- ==== Sys2Proof/Tests/Slice0.lean ====
section
/-! SUPPORT. Tests of the model and witnesses of the statements' hypotheses. Expected results are those of
95_test_vectors.md or are written out from the formats of 30_encoding.md. -/

namespace Sys2Proof.Tests

open Sys2Proof Sys2Proof.Machine

/-! ## Well-formedness: each check refuses an ill-formed term -/

theorem test_ldi_index_8_ill_formed : Instr.wellFormed (.ldi 8 5) = false := by decide
theorem test_prn_index_8_ill_formed : Instr.wellFormed (.prn 8) = false := by decide
theorem test_mul_first_index_8_ill_formed : Instr.wellFormed (.mul 8 0) = false := by decide
theorem test_mul_second_index_255_ill_formed : Instr.wellFormed (.mul 0 255) = false := by decide
theorem test_index_7_well_formed : Instr.wellFormed (.mul 7 7) = true := by decide

/-! ## Decoding: words written out bit by bit from the encodings -/

theorem test_decode_hlt : decode [0b00000001] = .ok (.hlt, []) := by rfl
theorem test_decode_ldi : decode [0b10000010, 0b00000111, 0b11111111] = .ok (.ldi 7 255, []) := by rfl
theorem test_decode_prn : decode [0b01000111, 0b00000101] = .ok (.prn 5, []) := by rfl
theorem test_decode_mul : decode [0b10100010, 0b00000010, 0b00000011] = .ok (.mul 2 3, []) := by rfl

/-- The first byte is bits 7..0 of a table word, the second bits 15..8, the third bits 23..16. -/
theorem test_decodeTableWord_mul :
    decodeTableWord 24 0b000000110000001010100010 = some (.mul 2 3) := by rfl

/-- Every bit from `nbits` on is 0. -/
theorem test_decodeTableWord_short : decodeTableWord 8 0b1111111110000010 = some (.ldi 0 0) := by rfl

/-- V-D5 to V-D10: the neighbours of the four opcodes, and other emulators' opcodes. -/
theorem test_decode_rejects_neighbours :
    [0x00#8, 0xFF, 0x7F, 0x80, 0x03, 0x05, 0x09, 0x11, 0x21, 0x41, 0x81, 0x46, 0x45, 0x43, 0x4F, 0x57, 0x67, 0x07,
      0xC7, 0x83, 0x86, 0x8A, 0x92, 0xC2, 0x02, 0xA3, 0xA0, 0xA6, 0xAA, 0xB2, 0xE2, 0x22, 0xA1, 0xA7, 0xA8, 0xAB,
      0xAC, 0xAD, 0x50, 0x54].all (fun op => (decodeOpcode op).isNone) = true := by decide

/-! ## One step -/

/-- A Running machine after reset with the pc, the registers and the bytes at `base` given. -/
def boot (regs : RegFile) (pc base : Nat) (bytes : List Byte) : State :=
  { State.resetWith regs with mem := Memory.place [] base bytes, pc := pc }

def zeros : RegFile := Vector.replicate 8 0

def nextState : Host.Outcome State Fault Refusal → Option State
  | .next s => some s
  | .fault _ => none
  | .refused _ => none

/-- pc, run state and output of an answer. -/
def view (o : Host.Outcome State Fault Refusal) : Option (Nat × RunState × List Byte) :=
  (nextState o).map (fun s => (s.pc, s.run, s.out))

def regAfter (o : Host.Outcome State Fault Refusal) (i : Fin 8) : Option Byte :=
  (nextState o).map (fun s => s.regs[i])

/-- V-H2. -/
theorem test_hlt_at_255 : view (step (boot zeros 255 255 [0x01])) = some (256, .halted, []) := by decide

/-- V-H3. -/
theorem test_halted_has_no_step : step { State.reset with run := .halted } = .fault .terminal := by rfl

/-- V-L8: the last address an LDI can stand at. -/
theorem test_ldi_at_253 :
    regAfter (step (boot zeros 253 253 [0x82, 0x01, 0x07])) 1 = some 7 ∧
    view (step (boot zeros 253 253 [0x82, 0x01, 0x07])) = some (256, .running, []) := by decide

/-- V-L4: index 8 is not register 0. -/
theorem test_ldi_index_8 :
    nextState (step (boot zeros 0 0 [0x82, 0x08, 0x05])) =
      some { boot zeros 0 0 [0x82, 0x08, 0x05] with run := .faulted .outOfBounds } := by decide

/-- V-P7. -/
theorem test_prn_twice :
    view (step { boot #v[5, 0, 0, 0, 0, 0, 0, 0] 0 0 [0x47, 0x00] with out := [5] }) =
      some (2, .running, [5, 5]) := by decide

/-- V-P4. -/
theorem test_prn_at_255 : view (step (boot zeros 255 255 [0x47])) = some (255, .faulted .outOfBounds, []) := by decide

/-- V-MU2: 200 * 3 = 600, which gives 88. -/
theorem test_mul_wraps :
    regAfter (step (boot #v[0, 0, 200, 3, 0, 0, 0, 0] 0 0 [0xA2, 0x02, 0x03])) 2 = some 88 := by decide

/-- V-MU4: a bad second index leaves the destination. -/
theorem test_mul_index_8 :
    nextState (step (boot #v[5, 0, 0, 0, 0, 0, 0, 0] 0 0 [0xA2, 0x00, 0x08])) =
      some { boot #v[5, 0, 0, 0, 0, 0, 0, 0] 0 0 [0xA2, 0x00, 0x08] with run := .faulted .outOfBounds } := by decide

/-- V-F1: an illegal opcode at 255 is UnknownOpcode, not OutOfBounds. -/
theorem test_illegal_at_255 : view (step (boot zeros 255 255 [0xFF])) = some (255, .faulted .unknownOpcode, []) := by
  decide

/-- V-F2. -/
theorem test_fetch_at_256 : view (step (boot zeros 256 0 [])) = some (256, .faulted .outOfBounds, []) := by decide

/-- V-F4: the second operand of an LDI at 254 is past the end. -/
theorem test_ldi_at_254 : view (step (boot zeros 254 254 [0x82, 0x09])) = some (254, .faulted .outOfBounds, []) := by
  decide

/-- A table word placed in the reset machine runs as its first instruction: LDI R1,8. -/
theorem test_withFetchWord_ldi :
    regAfter (step (State.reset.withFetchWord 24 0b000010000000000110000010)) 1 = some 8 := by decide

/-! ## Units -/

/-- V-A2 and V-A14. -/
theorem test_alu_wraps :
    (aluUnit 0 2 3 #v[0, 0, 200, 100, 0, 0, 0, 0] = .ok #v[0, 0, 44, 100, 0, 0, 0, 0]) ∧
    (aluUnit 1 2 3 #v[0, 0, 200, 3, 0, 0, 0, 0] = .ok #v[0, 0, 88, 3, 0, 0, 0, 0]) := by
  constructor <;> rfl

/-- V-A19 and V-A26: the kind is matched before the indices. -/
theorem test_alu_unsupported_first :
    aluUnit 2 200 201 zeros = .error .unsupportedOperation ∧
    aluUnit 15 200 200 zeros = .error .unsupportedOperation := by
  constructor <;> rfl

/-- V-R1 and V-R4: the port's wrap. -/
theorem test_set_wraps :
    regSet zeros 3 300 = .ok #v[0, 0, 0, 44, 0, 0, 0, 0] ∧ regSet zeros 0 (-1) = .ok #v[255, 0, 0, 0, 0, 0, 0, 0] := by
  constructor <;> rfl

/-- V-M4 and V-M7: what is stored is read back, beside an unlisted cell. -/
theorem test_place_reads_back :
    Memory.lookup (Memory.place [] 0 [0x82, 0x00, 0x08]) 2 = 0x08 ∧
    Memory.lookup (Memory.place [] 0 [0x82, 0x00, 0x08]) 3 = 0x00 ∧
    Memory.place [] 0 [0x82, 0x00, 0x08] = [(0, 0x82), (2, 0x08)] := by decide

/-- V-P6: in the mode `unwritten`, PRN of a register nothing has written. -/
theorem test_unwritten_prn :
    stepTracked { Tracked.resetWith zeros with machine := boot zeros 0 0 [0x47, 0x01] } =
      .fault (.unwrittenRegisterRead 1) := by rfl

/-- V-T1, V-T2, V-T3 and V-T5. -/
theorem test_text_lines :
    parseText ["10000010 # LDI".toList, "   101   ".toList, "# comment only".toList, [], "000000001".toList] =
      .ok [0x82, 0x05, 0x01] := by rfl

/-- V-T6 to V-T9. -/
theorem test_text_errors :
    parseLine "100000000".toList = .error .parseError ∧ parseLine "0b101".toList = .error .parseError ∧
    parseLine "2".toList = .error .parseError ∧ parseLine "1 0".toList = .error .parseError := by
  refine ⟨?_, ?_, ?_, ?_⟩ <;> rfl

/-- 60_exceptions.md R224: 8 and 54, a line each. -/
theorem test_render : renderOutput ['\n'] [8, 54] = ['8', '\n', '5', '4', '\n'] := by decide

/-- 30_encoding.md R91: the spelling of the examples. -/
theorem test_spelling :
    spelling (.ldi 0 8) = "LDI R0,8".toList ∧ spelling (.mul 0 1) = "MUL R0,R1".toList ∧
    spelling (.prn 255) = "PRN R255".toList ∧ spelling .hlt = "HLT".toList := by
  refine ⟨?_, ?_, ?_, ?_⟩ <;> rfl

/-- 10_state.md R31: UnknownOpcode is reason 11, state 10. -/
theorem test_run_state_register : RunState.encode (.faulted .unknownOpcode) = 0b1110 := by decide

/-! ## Witnesses: for each statement with hypotheses, a state and operands that meet them -/

/-- IllegalOpcodesRejected. -/
theorem witness_illegalOpcodesRejected : (0x00 : Byte) ≠ 0x01 ∧ (0x00 : Byte) ≠ 0x82 ∧ (0x00 : Byte) ≠ 0x47 ∧ (0x00 : Byte) ≠ 0xA2 := by decide

/-- MemoryWriteThenRead: both clauses at their boundary, over a canonical memory. -/
theorem witness_memoryWriteThenRead : Memory.wf [(3, 7), (255, 1)] ∧ 255 < 256 ∧ 256 ≤ 256 := by decide

/-- LoadedBytesReadBack, with an address before and one past the bytes, and OverlongLoadOverflows. -/
theorem witness_load_lengths :
    ([1, 2] : List Byte).length ≤ 256 ∧ 1 < ([1, 2] : List Byte).length ∧ ([1, 2] : List Byte).length ≤ 255 ∧ 255 < 256 ∧
      (List.replicate 256 (1 : Byte)).length ≤ 256 ∧ 256 < (List.replicate 257 (1 : Byte)).length := by
  simp only [List.length_replicate]; decide

/-- RegisterSetThenGet, AluComputesModulo256, AluSameIndexDoublesAndSquares, LdiResult, PrnResult, MulResult: the valid
clause at 7, the other at 8, and another register. -/
theorem witness_register_indices : (7 : Byte).toNat < 8 ∧ 8 ≤ (8 : Byte).toNat ∧ (6 : Byte) ≠ 7 := by decide

/-- AluWritesOnlyFirstOperand. -/
theorem witness_aluWritesOnlyFirstOperand :
    aluUnit 1 0 1 #v[9, 6, 0, 0, 0, 0, 0, 0] = .ok #v[54, 6, 0, 0, 0, 0, 0, 0] ∧ (1 : Byte) ≠ 0 := by
  refine ⟨?_, ?_⟩
  · rfl
  · decide

/-- HltFromMemory. -/
theorem witness_hltFromMemory :
    (boot zeros 255 255 [0x01]).run = .running ∧ (boot zeros 255 255 [0x01]).pc ≤ 255 ∧
      (boot zeros 255 255 [0x01]).mem.read 255 = .ok 0x01 := ⟨rfl, by decide, rfl⟩

/-- LdiFromMemory: a valid index, an index of 8, and an LDI at 254 and at 255. -/
theorem witness_ldiFromMemory :
    (boot zeros 253 253 [0x82, 7, 1]).run = .running ∧ (boot zeros 253 253 [0x82, 7, 1]).mem.read 253 = .ok 0x82 ∧
    (boot zeros 253 253 [0x82, 7, 1]).mem.read 254 = .ok 7 ∧ (boot zeros 253 253 [0x82, 7, 1]).mem.read 255 = .ok 1 ∧
    (boot zeros 253 253 [0x82, 8, 1]).mem.read 254 = .ok 8 ∧
    (boot zeros 254 254 [0x82, 7]).mem.read 254 = .ok 0x82 ∧ (boot zeros 255 255 [0x82]).mem.read 255 = .ok 0x82 := by
  refine ⟨?_, ?_, ?_, ?_, ?_, ?_, ?_⟩ <;> rfl

/-- PrnFromMemory: a valid index, an index of 8, a PRN at 255, and an unmarked register. -/
theorem witness_prnFromMemory :
    (boot zeros 254 254 [0x47, 7]).run = .running ∧ (boot zeros 254 254 [0x47, 7]).mem.read 254 = .ok 0x47 ∧
    (boot zeros 254 254 [0x47, 7]).mem.read 255 = .ok 7 ∧ (boot zeros 254 254 [0x47, 8]).mem.read 255 = .ok 8 ∧
    (boot zeros 255 255 [0x47]).mem.read 255 = .ok 0x47 ∧ (Tracked.resetWith zeros).written[7] = false := by
  refine ⟨?_, ?_, ?_, ?_, ?_, ?_⟩ <;> rfl

/-- MulFromMemory: valid indices, each index at 8 in turn, and a MUL at 254 and at 255. -/
theorem witness_mulFromMemory :
    (boot zeros 253 253 [0xA2, 7, 7]).run = .running ∧ (boot zeros 253 253 [0xA2, 7, 7]).mem.read 253 = .ok 0xA2 ∧
    (boot zeros 253 253 [0xA2, 7, 7]).mem.read 254 = .ok 7 ∧ (boot zeros 253 253 [0xA2, 7, 7]).mem.read 255 = .ok 7 ∧
    (boot zeros 253 253 [0xA2, 8, 7]).mem.read 254 = .ok 8 ∧ (boot zeros 253 253 [0xA2, 7, 8]).mem.read 255 = .ok 8 ∧
    (boot zeros 254 254 [0xA2, 7]).mem.read 254 = .ok 0xA2 ∧ (boot zeros 255 255 [0xA2]).mem.read 255 = .ok 0xA2 := by
  refine ⟨?_, ?_, ?_, ?_, ?_, ?_, ?_, ?_⟩ <;> rfl

/-- MemoryNeverWritten, RegistersWrittenAsListed, OutputOnlyByPrn, RunStateFrame: each instruction answers a next state;
a PRN that emits and one that faults. -/
theorem witness_exec_next :
    exec .hlt (boot zeros 0 0 []) = .next { boot zeros 0 0 [] with pc := 1, run := .halted } ∧
    exec (.ldi 7 3) (boot zeros 0 0 []) = .next { boot zeros 0 0 [] with pc := 3, regs := #v[0, 0, 0, 0, 0, 0, 0, 3] } ∧
    exec (.prn 7) (boot zeros 0 0 []) = .next { boot zeros 0 0 [] with pc := 2, out := [0] } ∧
    exec (.prn 8) (boot zeros 0 0 []) = .next { boot zeros 0 0 [] with run := .faulted .outOfBounds } ∧
    exec (.mul 0 7) (boot #v[3, 0, 0, 0, 0, 0, 0, 5] 0 0 []) =
      .next { boot #v[15, 0, 0, 0, 0, 0, 0, 5] 0 0 [] with pc := 3 } := by
  refine ⟨?_, ?_, ?_, ?_, ?_⟩ <;> rfl

/-- RegistersReadAsListed: MUL R0,R1 over two register files that differ in R2. -/
theorem witness_registersReadAsListed :
    regGet #v[3, 5, 1, 0, 0, 0, 0, 0] 0 = regGet #v[3, 5, 2, 0, 0, 0, 0, 0] 0 ∧
    regGet #v[3, 5, 1, 0, 0, 0, 0, 0] 1 = regGet #v[3, 5, 2, 0, 0, 0, 0, 0] 1 ∧
    exec (.mul 0 1) (boot #v[3, 5, 2, 0, 0, 0, 0, 0] 0 0 []) =
      .next { boot #v[15, 5, 2, 0, 0, 0, 0, 0] 0 0 [] with pc := 3 } := by
  refine ⟨?_, ?_, ?_⟩ <;> rfl

/-- StepRunsDecoded, with bytes left after the instruction. -/
theorem witness_stepRunsDecoded :
    (boot zeros 0 0 [0x47, 3, 1]).run = .running ∧
    decode (bytesAt (boot zeros 0 0 [0x47, 3, 1]).mem 0 3) = .ok (.prn 3, [1]) := ⟨rfl, rfl⟩

/-- StepFaultsOnUndecodable: each reason. -/
theorem witness_stepFaultsOnUndecodable :
    decode (bytesAt (boot zeros 256 0 []).mem 256 3) = .error .noOpcode ∧
    decode (bytesAt (boot zeros 255 255 [0xFF]).mem 255 3) = .error (.unknownOpcode 0xFF) ∧
    decode (bytesAt (boot zeros 254 254 [0x82, 9]).mem 254 3) = .error (.missingOperand .ldi) := ⟨rfl, rfl, rfl⟩

/-- StepChecksInOrder, RunningAlwaysSteps, OutOfBoundsExactly, UnknownOpcodeExactly, EveryRunEnds: Running, here with a
`0x00` at the pc, and TerminalHasNoStep and RunToEndIsTerminal: not Running. -/
theorem witness_run_states :
    State.reset.run = .running ∧ State.reset.pc ≤ 255 ∧ State.reset.mem.read State.reset.pc = .ok 0x00 ∧
    { State.reset with run := .halted }.run ≠ .running := ⟨rfl, by decide, rfl, by decide⟩

/-- FaultsArePrecise, PcAdvancesByWidth, UnsupportedOperationUnreached, RunStateMovesOutOfRunning: a step that faults. -/
theorem witness_step_faults :
    step State.reset = .next { State.reset with run := .faulted .unknownOpcode } := rfl

/-- RunStateMovesOutOfRunning, the host's clause: a move allowed in a terminal state. -/
theorem witness_terminal_move :
    Session.perform { machine := { State.reset with run := .halted }, phase := .stepped } .readState =
      some { machine := { State.reset with run := .halted }, phase := .stepped } := rfl

/-- StepKeepsInvariant: a machine that is not the reset machine and steps. -/
theorem witness_stepKeepsInvariant :
    (boot zeros 255 255 [0x01]).inv ∧
    step (boot zeros 255 255 [0x01]) = .next { boot zeros 255 255 [0x01] with pc := 256, run := .halted } :=
  ⟨⟨by decide, by decide, trivial⟩, rfl⟩

/-- LoadKeepsInvariant. -/
theorem witness_loadKeepsInvariant :
    State.reset.inv ∧ State.reset.run = .running ∧
    load State.reset [1] = .ok { State.reset with mem := [(0, 1)] } :=
  ⟨⟨by decide, by decide, trivial⟩, rfl, rfl⟩

/-- ResetState: an address, and ResetRegistersChosenZero: an index. -/
theorem witness_reset_reads : 255 < 256 ∧ (7 : Byte).toNat < 8 := by decide

/-- UnwrittenReadExactly and TrackedStepIsStep: a Running machine that faults, and one that steps and marks R1. -/
theorem witness_tracked :
    stepTracked { Tracked.resetWith zeros with machine := boot zeros 0 0 [0xA2, 1, 2] } =
      .fault (.unwrittenRegisterRead 1) ∧
    stepTracked { Tracked.resetWith zeros with machine := boot zeros 0 0 [0x82, 1, 2] } =
      .next { machine := { boot #v[0, 2, 0, 0, 0, 0, 0, 0] 0 0 [0x82, 1, 2] with pc := 3 },
              written := #v[false, true, false, false, false, false, false, false] } := ⟨rfl, rfl⟩

/-- TrackedStepIsStep, the clause that a step answers: HLT, and PRN and MUL of marked registers, are about to read no
unmarked register. -/
theorem witness_trackedStepAnswers :
    (∀ r, ¬ Tracked.unwrittenReadCause { Tracked.resetWith zeros with machine := boot zeros 0 0 [0x01] } r) ∧
    (∀ r, ¬ Tracked.unwrittenReadCause { machine := boot zeros 0 0 [0x47, 7], written := Vector.replicate 8 true } r) ∧
    (∀ r, ¬ Tracked.unwrittenReadCause { machine := boot zeros 0 0 [0xA2, 0, 7], written := Vector.replicate 8 true } r) := by
  refine ⟨?_, ?_, ?_⟩
  · have fetched : fetchInstr (boot zeros 0 0 [0x01]) = .ok .hlt := rfl
    rintro r ⟨-, -, hr | ⟨b, hr⟩ | ⟨a, hr, -⟩⟩ <;> exact absurd (fetched.symm.trans hr) (by simp)
  · rintro r ⟨h, hw, -⟩
    simp at hw
  · rintro r ⟨h, hw, -⟩
    simp at hw

/-- UnwrittenContentsUnseen: two machines that differ in a register nothing has written. -/
theorem witness_unwrittenContentsUnseen :
    (Tracked.resetWith zeros).agree (Tracked.resetWith #v[1, 2, 3, 4, 5, 6, 7, 8]) ∧
    Tracked.resetWith zeros ≠ Tracked.resetWith #v[1, 2, 3, 4, 5, 6, 7, 8] :=
  ⟨⟨rfl, rfl, rfl, rfl, rfl, by decide⟩, by decide⟩

/-- RunIndependentOfRegInit: LDI R0,8 from two register files, one step. -/
theorem witness_runIndependentOfRegInit :
    load (State.resetWith zeros) [0x82, 0, 8] = .ok (boot zeros 0 0 [0x82, 0, 8]) ∧
    load (State.resetWith #v[1, 2, 3, 4, 5, 6, 7, 8]) [0x82, 0, 8] =
      .ok (boot #v[1, 2, 3, 4, 5, 6, 7, 8] 0 0 [0x82, 0, 8]) ∧
    Host.Core.run trackedCore 1 { machine := boot zeros 0 0 [0x82, 0, 8], written := Vector.replicate 8 false } =
      .next { machine := { boot #v[8, 0, 0, 0, 0, 0, 0, 0] 0 0 [0x82, 0, 8] with pc := 3 },
              written := #v[true, false, false, false, false, false, false, false] } := ⟨rfl, rfl, rfl⟩

/-- HostWritesNothingDuringRun: a step and a run from a session that is ready. -/
theorem witness_hostWritesNothingDuringRun :
    Session.perform { machine := State.reset, phase := .ready } .step =
      some { machine := { State.reset with run := .faulted .unknownOpcode }, phase := .stepped } ∧
    Session.perform { machine := State.reset, phase := .ready } .run =
      some { machine := { State.reset with run := .faulted .unknownOpcode }, phase := .stepped } := by decide

/-- HostMovesAllowed: a ready session that is Running, a load of 256 bytes, the most there may be, and a file that
loads. -/
theorem witness_hostMovesAllowed :
    Session.start.phase = .ready ∧ Session.start.phase ≠ .loadFailed ∧ Session.start.machine.run = .running ∧
    (List.replicate 256 (1 : Byte)).length ≤ 256 ∧
    loadFile State.reset ['p'] (some [['1']]) = .ok { State.reset with mem := [(0, 1)] } := by
  refine ⟨rfl, by decide, rfl, ?_, rfl⟩
  simp only [List.length_replicate]; decide

/-- NoStepAfterLoaderError: a missing file, and one byte too many (P12). -/
theorem witness_noStepAfterLoaderError :
    Session.start.phase = .ready ∧ loadFile Session.start.machine ['p'] none = .error (.fileNotFound ['p']) ∧
    256 < (List.replicate 257 (1 : Byte)).length := by
  refine ⟨rfl, rfl, ?_⟩
  simp only [List.length_replicate]; decide

/-- LoaderErrorsExactly: a text that parses and fits. -/
theorem witness_loaderErrorsExactly : parseText [['1']] = .ok [1] ∧ ([1] : List Byte).length ≤ 256 := ⟨rfl, by decide⟩

/-- CommentsDiscarded and SurroundingSpaceTrimmed. -/
theorem witness_text : '#' ∉ ['1', '0'] ∧ (∀ c ∈ [' ', '\t'], Char.isWhitespace c = true) := by
  constructor
  · simp
  · simp

/-- LiteralsAreBinaryBytes, the error's clause. -/
theorem witness_literalsAreBinaryBytes : parseByte ['2'] = .error .parseError := rfl

/-- ExitStatusesDistinct. -/
theorem witness_exitStatusesDistinct :
    Config.exitStatusesOk { loaderError := 1, fault := 2, halt := 0 } = true ∧
    ({ machine := State.reset, phase := .loadFailed } : Session).phase = .loadFailed ∧
    ({ machine := { State.reset with run := .faulted .outOfBounds }, phase := .stepped } : Session).phase ≠ .loadFailed :=
  ⟨rfl, rfl, by decide⟩

end Sys2Proof.Tests
end

section
/-! PROOF. The run state under an instruction, a step and a move of the host (10_state.md R32). -/

namespace Sys2Proof.Machine

open Sys2Proof

/-! ## The step -/

/-- An instruction leaves the run state as it was, but HLT halts and a fault of its effect is entered. -/
theorem exec_run (i : Instr) (s t : State) (h : exec i s = .next t) :
    t.run = s.run ∨ (i = .hlt ∧ t.run = .halted) ∨ ∃ k, t.run = .faulted k := by
  rcases exec_cases i s t h with
    ⟨-, rfl⟩ | ⟨rfl, rfl⟩ | ⟨_, _, _, -, rfl⟩ | ⟨_, _, -, rfl⟩ | ⟨_, _, _, _, -, rfl⟩
  · exact .inr (.inr ⟨_, State.raise_run ..⟩)
  · exact .inr (.inl ⟨rfl, State.halt_run _⟩)
  all_goals exact .inl rfl

theorem step_run (s t : State) (h : step s = .next t) :
    s.run = .running ∧
      (t.run = .running ∨ (t.run = .halted ∧ fetchInstr s = .ok .hlt) ∨ ∃ k, t.run = .faulted k) := by
  obtain ⟨hs, ⟨i, hfetch, hexec⟩ | ⟨k, -, rfl⟩⟩ := step_cases s t h
  · refine ⟨hs, ?_⟩
    rcases exec_run i s t hexec with hsame | ⟨rfl, hhalt⟩ | hfault
    · exact .inl (hsame.trans hs)
    · exact .inr (.inl ⟨hhalt, hfetch⟩)
    · exact .inr (.inr hfault)
  · exact ⟨hs, .inr (.inr ⟨k, State.raise_run s k⟩)⟩

/-! ## The load -/

theorem load_run (s t : State) (bytes : List Byte) (h : load s bytes = .ok t) : t.run = s.run := by
  obtain ⟨-, rfl⟩ := (load_eq_ok ..).1 h
  rfl

/-- A file that loads is a load of the bytes of its text. -/
theorem loadFile_eq_ok (s t : State) (path : List Char) (file : Option (List Line)) :
    loadFile s path file = .ok t ↔
      ∃ text bytes, file = some text ∧ parseText text = .ok bytes ∧ load s bytes = .ok t := by
  cases file with
  | none => simp [loadFile]
  | some text => cases h : parseText text <;> simp [loadFile, h]

theorem loadFile_run (s t : State) (path : List Char) (file : Option (List Line))
    (h : loadFile s path file = .ok t) : t.run = s.run := by
  obtain ⟨_, bytes, -, -, hload⟩ := (loadFile_eq_ok ..).1 h
  exact load_run s t bytes hload

/-! ## The host's moves -/

/-- A load that keeps the run state keeps the session's; a loader error leaves the machine as it was. -/
theorem Session.afterLoad_run (x : Session) (r : Except LoaderError State)
    (h : ∀ t, r = .ok t → t.run = x.machine.run) : (x.afterLoad r).machine.run = x.machine.run := by
  cases r with
  | ok t => exact h t rfl
  | error e => rfl

/-- A load is allowed before the first step only. -/
theorem Session.perform_load_eq_some (x y : Session) (bytes : List Byte) :
    x.perform (.load bytes) = some y ↔ x.phase = .ready ∧ y = x.afterLoad (load x.machine bytes) := by
  cases h : x.phase <;> simp [Session.perform, h, eq_comm]

theorem Session.perform_loadFile_eq_some (x y : Session) (path : List Char) (file : Option (List Line)) :
    x.perform (.loadFile path file) = some y ↔
      x.phase = .ready ∧ y = x.afterLoad (loadFile x.machine path file) := by
  cases h : x.phase <;> simp [Session.perform, h, eq_comm]

/-- A single step is allowed where the machine has one. -/
theorem Session.perform_step_eq_some (x y : Session) :
    x.perform .step = some y ↔
      x.phase ≠ .loadFailed ∧ ∃ t, step x.machine = .next t ∧ y = { machine := t, phase := .stepped } := by
  cases h : x.phase <;> cases hs : step x.machine <;> simp [Session.perform, h, hs, eq_comm]

/-- Run-to-completion is allowed from Running only. -/
theorem Session.perform_run_eq_some (x y : Session) :
    x.perform .run = some y ↔
      x.phase ≠ .loadFailed ∧ x.machine.run = .running ∧
        y = { machine := runToEnd x.machine, phase := .stepped } := by
  cases h : x.phase <;> cases hr : x.machine.run <;> simp [Session.perform, h, hr, eq_comm]

/-- A machine that is not Running changes its run state by a reset only: the loads keep it, a step and a run are not
allowed, and the other moves change nothing. -/
theorem Session.runState_perform_of_not_running (x y : Session) (mv : Move) (hx : x.machine.run ≠ .running)
    (h : x.perform mv = some y) : mv = .reset ∨ y.machine.run = x.machine.run := by
  cases mv with
  | reset => exact .inl rfl
  | load bytes =>
    obtain ⟨-, rfl⟩ := (Session.perform_load_eq_some ..).1 h
    exact .inr (x.afterLoad_run _ fun t => load_run x.machine t bytes)
  | loadFile path file =>
    obtain ⟨-, rfl⟩ := (Session.perform_loadFile_eq_some ..).1 h
    exact .inr (x.afterLoad_run _ fun t => loadFile_run x.machine t path file)
  | step =>
    obtain ⟨-, t, hstep, -⟩ := (Session.perform_step_eq_some ..).1 h
    exact absurd (step_run x.machine t hstep).1 hx
  | run =>
    obtain ⟨-, hrun, -⟩ := (Session.perform_run_eq_some ..).1 h
    exact absurd hrun hx
  | stop => cases h; exact .inr rfl
  | readState => cases h; exact .inr rfl
  | readOutput => cases h; exact .inr rfl

/-- Settles O36: the step's clause is `step_run`, the host's `Session.runState_perform_of_not_running`, and a reset is
allowed in every session. -/
theorem runStateMovesOutOfRunning : Obligations.RunStateMovesOutOfRunning :=
  ⟨step_run, Session.runState_perform_of_not_running, fun x => ⟨Session.start, x.perform_reset, rfl⟩⟩

end Sys2Proof.Machine
end

section
/-! PROOF. Memory's bound (20_memory.md R65): the one reason for a write to fail, beside `Memory.write_eq_ok`. -/

namespace Sys2Proof.Machine

open Sys2Proof

/-- A write fails outside the address space only, whatever the byte, and only with OutOfBounds (R53). -/
theorem Memory.write_eq_error (m : Memory) (a : Nat) (v : Byte) (k : FaultKind) :
    m.write a v = .error k ↔ 256 ≤ a ∧ k = .outOfBounds := by
  by_cases h : a < 256
  · simp [Memory.write, h]
  · simp [Memory.write, h, Nat.le_of_not_lt h, eq_comm]

/-- Settles O4: 256 meets the condition under which a read or a write fails, and 255 the one under which each
succeeds. -/
theorem memoryBoundary : Obligations.MemoryBoundary := fun m v =>
  ⟨(m.read_eq_error 256 _).2 ⟨le_rfl, rfl⟩,
    (m.write_eq_error 256 v _).2 ⟨le_rfl, rfl⟩,
    ⟨m.lookup 255, (m.read_eq_ok 255 _).2 ⟨by decide, rfl⟩⟩,
    ⟨m.store 255 v, (m.write_eq_ok _ 255 v).2 ⟨by decide, rfl⟩⟩⟩

end Sys2Proof.Machine
end

section
/-! PROOF. The alu_unit at its ports (40_alu_unit.md R111 to R128): what each op code computes or refuses, and the one
register an operation writes. -/

namespace Sys2Proof.Machine

open Sys2Proof

/-! ## The codes (R112) -/

theorem aluKind_eq_add (op : BitVec 4) : aluKind op = .add ↔ op = 0#4 := by
  revert op; decide

theorem aluKind_eq_mul (op : BitVec 4) : aluKind op = .mul ↔ op = 1#4 := by
  revert op; decide

theorem aluUnit_add (a b : Byte) (regs : RegFile) :
    aluUnit 0#4 a b regs = aluBinary (fun x y => x + y) a b regs := rfl

theorem aluUnit_mul (a b : Byte) (regs : RegFile) :
    aluUnit 1#4 a b regs = aluBinary (fun x y => x * y) a b regs := rfl

/-- R120: a kind outside ADD and MUL is refused before any register access. -/
theorem aluApply_unsupported (kind : AluKind) (a b : Byte) (regs : RegFile)
    (hadd : kind ≠ .add) (hmul : kind ≠ .mul) :
    aluApply kind a b regs = .error .unsupportedOperation := by
  cases kind with
  | add => exact absurd rfl hadd
  | mul => exact absurd rfl hmul
  | sub | and | or | xor | shl | shr | cmp | other => rfl

theorem aluUnit_unsupported (op : BitVec 4) (a b : Byte) (regs : RegFile) (hadd : op ≠ 0#4) (hmul : op ≠ 1#4) :
    aluUnit op a b regs = .error .unsupportedOperation :=
  aluApply_unsupported (aluKind op) a b regs (mt (aluKind_eq_add op).1 hadd) (mt (aluKind_eq_mul op).1 hmul)

/-- An op code is ADD or MUL and computes, by the operation of `aluUnit_add` or `aluUnit_mul`, or it is refused. -/
theorem aluUnit_cases (op : BitVec 4) (a b : Byte) (regs : RegFile) :
    ((op = 0#4 ∨ op = 1#4) ∧ ∃ f, aluUnit op a b regs = aluBinary f a b regs) ∨
      (op ≠ 0#4 ∧ op ≠ 1#4 ∧ aluUnit op a b regs = .error .unsupportedOperation) := by
  by_cases hadd : op = 0#4
  · subst hadd; exact .inl ⟨.inl rfl, _, aluUnit_add a b regs⟩
  by_cases hmul : op = 1#4
  · subst hmul; exact .inl ⟨.inr rfl, _, aluUnit_mul a b regs⟩
  exact .inr ⟨hadd, hmul, aluUnit_unsupported op a b regs hadd hmul⟩

/-- The one fault of an operation that computes is OutOfBounds (R114, R115). -/
theorem aluBinary_ne_unsupported (f : Nat → Nat → Nat) (a b : Byte) (regs : RegFile) :
    aluBinary f a b regs ≠ .error .unsupportedOperation := fun h =>
  nomatch ((aluBinary_eq_error ..).1 h).2

/-- Settles O10: ADD and MUL have no such fault (`aluBinary_ne_unsupported`), and every other code has no other
answer. -/
theorem otherAluKindsUnsupported : Obligations.OtherAluKindsUnsupported := fun op a b regs => by
  rcases aluUnit_cases op a b regs with ⟨hop, f, hunit⟩ | ⟨hadd, hmul, hunit⟩
  · have computes := aluBinary_ne_unsupported f a b regs
    rw [← hunit] at computes
    exact iff_of_false computes fun ⟨hadd, hmul⟩ => hop.elim hadd hmul
  · exact iff_of_true hunit ⟨hadd, hmul⟩

/-! ## The one write (R113, R117) -/

/-- A register other than the one written reads as before, a bad index included. -/
theorem regGet_set_of_ne (regs : RegFile) (i j v : Byte) (hi : i.toNat < 8) (hj : j ≠ i) :
    regGet (regs.set i.toNat v) j = regGet regs j := by
  have hne : i.toNat ≠ j.toNat := fun h => hj (BitVec.eq_of_toNat_eq h.symm)
  by_cases h : j.toNat < 8
  · simp [regGet, h, Vector.getElem_set_ne hi h hne]
  · simp [regGet, h]

theorem regGet_aluBinary_of_ne (f : Nat → Nat → Nat) (a b j : Byte) (regs regs' : RegFile)
    (h : aluBinary f a b regs = .ok regs') (hj : j ≠ a) : regGet regs' j = regGet regs j := by
  obtain ⟨ha, -, rfl⟩ := (aluBinary_eq_ok ..).1 h
  exact regGet_set_of_ne regs a j _ ha hj

/-- Settles O12: a code that is refused answers no register file, and the others write as
`regGet_aluBinary_of_ne` says. -/
theorem aluWritesOnlyFirstOperand : Obligations.AluWritesOnlyFirstOperand := fun op a b regs regs' h => by
  rcases aluUnit_cases op a b regs with ⟨hop, f, hunit⟩ | ⟨-, -, hunit⟩
  · exact ⟨hop, fun j => regGet_aluBinary_of_ne f a b j regs regs' (hunit.symm.trans h)⟩
  · exact nomatch hunit.symm.trans h

/-- On valid indices an operation that computes leaves its result modulo 256 in the first operand (R113, R119). -/
theorem aluBinary_writes_mod (f : Nat → Nat → Nat) (a b : Byte) (regs : RegFile)
    (ha : a.toNat < 8) (hb : b.toNat < 8) :
    ∃ regs', aluBinary f a b regs = .ok regs' ∧
      regs'[a.toNat].toNat = f regs[a.toNat].toNat regs[b.toNat].toNat % 256 :=
  ⟨_, (aluBinary_eq_ok ..).2 ⟨ha, hb, rfl⟩, by rw [Vector.getElem_set_self, BitVec.toNat_ofNat]⟩

/-- Settles O11: with both operands the one register, the sum is twice its value and the product its square. -/
theorem aluSameIndexDoublesAndSquares : Obligations.AluSameIndexDoublesAndSquares := fun a regs h => by
  rw [aluUnit_add, aluUnit_mul, Nat.two_mul, Nat.pow_two]
  exact ⟨aluBinary_writes_mod (fun x y => x + y) a a regs h h, aluBinary_writes_mod (fun x y => x * y) a a regs h h⟩

end Sys2Proof.Machine
end

section
/-! PROOF. A step from the instruction's bytes in memory (41_instructions.md R141 to R143, R145): the fetch of HLT and of
the kinds with two operand bytes, then the effect. -/

namespace Sys2Proof.Machine

open Sys2Proof

/-! ## The fetch (R141) -/

/-- A kind's opcode byte decodes to the kind and its number of operand bytes. -/
theorem decodeOpcode_kind (kind : Kind) : decodeOpcode kind.opcode = some (kind, kind.operandBytes) :=
  (decodeOpcode_eq_some ..).2 ⟨rfl, rfl⟩

theorem fetchInstr_hlt (s : State) (hop : s.mem.read s.pc = .ok Kind.hlt.opcode) : fetchInstr s = .ok .hlt := by
  simp [fetchInstr, hop, decodeOpcode_kind, fetchOperand, Kind.build]

theorem fetchInstr_two_operands (s : State) (kind : Kind) (hkind : kind.operandBytes = 2) (op1 op2 : Byte)
    (hop : s.mem.read s.pc = .ok kind.opcode) (h1 : s.mem.read (s.pc + 1) = .ok op1)
    (h2 : s.mem.read (s.pc + 2) = .ok op2) : fetchInstr s = .ok (kind.build op1 op2) := by
  simp [fetchInstr, hop, decodeOpcode_kind, hkind, fetchOperand, h1, h2]

/-- At 255 the first of two operand bytes is past the end of memory, at 254 the second. -/
theorem fetchInstr_two_operands_past_end (s : State) (kind : Kind) (hkind : kind.operandBytes = 2)
    (hop : s.mem.read s.pc = .ok kind.opcode) (hpc : 254 ≤ s.pc) : fetchInstr s = .error .outOfBounds := by
  have h2 : s.mem.read (s.pc + 2) = .error .outOfBounds := (Memory.read_eq_error ..).2 ⟨by omega, rfl⟩
  cases h1 : s.mem.read (s.pc + 1) with
  | ok op1 => simp [fetchInstr, hop, decodeOpcode_kind, hkind, fetchOperand, h1, h2]
  | error k =>
    obtain ⟨-, rfl⟩ := (Memory.read_eq_error ..).1 h1
    simp [fetchInstr, hop, decodeOpcode_kind, hkind, fetchOperand, h1]

/-! ## The step after the fetch -/

theorem step_of_fetchInstr_ok (s : State) (i : Instr) (hs : s.run = .running) (h : fetchInstr s = .ok i) :
    step s = exec i s := by
  simp only [step, hs, h]

theorem step_of_fetchInstr_error (s : State) (k : FaultKind) (hs : s.run = .running) (h : fetchInstr s = .error k) :
    step s = .next (s.raise k) := by
  simp only [step, hs, h]

/-- In the mode `unwritten` an instruction that is to read no unmarked register has its effect, and what it writes is
marked. -/
theorem stepTracked_of_fetchInstr_ok (t : Tracked) (i : Instr) (s : State) (ht : t.machine.run = .running)
    (hfetch : fetchInstr t.machine = .ok i) (hreads : firstUnwritten t.written (readsRegs i) = none)
    (hexec : exec i t.machine = .next s) :
    stepTracked t = .next { machine := s, written := markWritten t.written (writesReg i) } := by
  simp only [stepTracked, ht, hfetch, hreads, hexec]

/-- A valid register is marked when it is written. -/
theorem markWritten_self (written : Vector Bool 8) (i : Byte) (h : i.toNat < 8) :
    (markWritten written (some i))[i.toNat] = true := by
  simpa using markWritten_some_getElem written i ⟨i.toNat, h⟩

/-! ## The instructions -/

/-- Settles O17: HLT has no operand to fetch, and `exec` halts it past its byte. -/
theorem hltFromMemory : Obligations.HltFromMemory :=
  ⟨rfl, fun s hs _ hop => step_of_fetchInstr_ok s .hlt hs (fetchInstr_hlt s hop)⟩

/-- Settles O18: the fetch is `fetchInstr_two_operands`, the effect `execLdi_eq_next`, and LDI reads no register. -/
theorem ldiFromMemory : Obligations.LdiFromMemory := by
  refine ⟨fun _ _ => rfl, fun s hs hop => ?_⟩
  have fetched (r imm : Byte) := fetchInstr_two_operands s .ldi rfl r imm hop
  refine ⟨fun r imm h1 h2 => ?_, fun hpc => ?_, fun r imm written h1 h2 hr => ?_⟩
  · rw [step_of_fetchInstr_ok s (.ldi r imm) hs (fetched r imm h1 h2)]
    exact ⟨fun hr => (execLdi_eq_next ..).2 (.inl ⟨hr, rfl⟩), fun hr => (execLdi_eq_next ..).2 (.inr ⟨hr, rfl⟩)⟩
  · exact step_of_fetchInstr_error s _ hs (fetchInstr_two_operands_past_end s .ldi rfl hop (by omega))
  · obtain ⟨t, hexec⟩ := exec_total (.ldi r imm) s
    exact ⟨_, stepTracked_of_fetchInstr_ok ⟨s, written⟩ (.ldi r imm) t hs (fetched r imm h1 h2) rfl hexec,
      markWritten_self written r hr⟩

/-- The product of two bytes as R145 writes it. -/
theorem ofNat_mul_mod_256 (x y : Byte) : BitVec.ofNat 8 (x.toNat * y.toNat % 256) = x * y :=
  BitVec.eq_of_toNat_eq (by simp [BitVec.toNat_mul])

/-- Settles O20: the fetch is `fetchInstr_two_operands`, the effect `execMul_eq_next`. -/
theorem mulFromMemory : Obligations.MulFromMemory := by
  refine ⟨fun _ _ => rfl, fun s hs hop => ⟨fun a b h1 h2 => ?_, fun hpc => ?_⟩⟩
  · rw [step_of_fetchInstr_ok s (.mul a b) hs (fetchInstr_two_operands s .mul rfl a b hop h1 h2)]
    refine ⟨fun ha hb => ?_, fun hab => (execMul_eq_next ..).2 (.inr ⟨hab, rfl⟩)⟩
    rw [ofNat_mul_mod_256]
    exact (execMul_eq_next ..).2 (.inl ⟨ha, hb, rfl⟩)
  · exact step_of_fetchInstr_error s _ hs (fetchInstr_two_operands_past_end s .mul rfl hop (by omega))

end Sys2Proof.Machine
end

section
/-! PROOF. Fault entry (60_exceptions.md R202, R203): a step enters what its fetch faults with, or the one fault of an
instruction, OutOfBounds. -/

namespace Sys2Proof.Machine

open Sys2Proof

/-- The one fault an instruction enters from Running is OutOfBounds. -/
theorem exec_faulted (i : Instr) (s t : State) (k : FaultKind) (hs : s.run = .running) (h : exec i s = .next t)
    (ht : t.run = .faulted k) : k = .outOfBounds ∧ t = s.raise k := by
  rcases exec_cases i s t h with
    ⟨-, rfl⟩ | ⟨-, rfl⟩ | ⟨_, _, _, -, rfl⟩ | ⟨_, _, -, rfl⟩ | ⟨_, _, _, _, -, rfl⟩
  · cases ht; exact ⟨rfl, rfl⟩
  · cases ht
  all_goals exact nomatch hs.symm.trans ht

/-- A step that enters a fault enters that of its fetch or OutOfBounds, and changes nothing else (R205). -/
theorem step_faulted (s t : State) (k : FaultKind) (h : step s = .next t) (ht : t.run = .faulted k) :
    (fetchInstr s = .error k ∨ k = .outOfBounds) ∧ t = s.raise k := by
  obtain ⟨hs, ⟨i, -, hexec⟩ | ⟨k', hfetch, rfl⟩⟩ := step_cases s t h
  · obtain ⟨hk, heq⟩ := exec_faulted i s t k hs hexec ht
    exact ⟨.inr hk, heq⟩
  · cases ht; exact ⟨.inl hfetch, rfl⟩

/-! ## UnknownOpcode (R202) -/

/-- The fetch faults UnknownOpcode exactly where it reads an opcode byte that the table has no row for. -/
theorem fetchInstr_eq_unknownOpcode (s : State) :
    fetchInstr s = .error .unknownOpcode ↔ ∃ op, s.mem.read s.pc = .ok op ∧ decodeOpcode op = none := by
  refine ⟨fun h => ?_, fun ⟨op, hop, hnone⟩ => by simp only [fetchInstr, hop, hnone]⟩
  unfold fetchInstr at h
  split at h
  · rename_i hread
    cases h; cases ((Memory.read_eq_error ..).1 hread).2
  · rename_i op hop
    split at h
    · exact ⟨op, hop, ‹_›⟩
    · split at h
      · rename_i hoperand
        cases h; cases ((fetchOperand_eq_error ..).1 hoperand).2.2
      · split at h
        · rename_i hoperand
          cases h; cases ((fetchOperand_eq_error ..).1 hoperand).2.2
        · cases h

/-- A step from Running enters UnknownOpcode exactly where its fetch faults with it. -/
theorem step_enters_unknownOpcode_iff (s : State) (hs : s.run = .running) :
    (∃ t, step s = .next t ∧ t.run = .faulted .unknownOpcode) ↔ fetchInstr s = .error .unknownOpcode := by
  constructor
  · rintro ⟨t, h, ht⟩
    exact (step_faulted s t _ h ht).1.resolve_right (by simp)
  · intro hfetch
    exact ⟨_, step_of_fetchInstr_error s _ hs hfetch, State.raise_run ..⟩

/-- The fetch faults UnknownOpcode exactly in the cases of R202. -/
theorem fetchInstr_eq_unknownOpcode_iff_bytes (s : State) :
    fetchInstr s = .error .unknownOpcode ↔
      ∃ op, s.pc ≤ 255 ∧ s.mem.read s.pc = .ok op ∧ op ≠ 0x01#8 ∧ op ≠ 0x47#8 ∧ op ≠ 0x82#8 ∧ op ≠ 0xA2#8 := by
  rw [fetchInstr_eq_unknownOpcode]
  constructor
  · rintro ⟨op, hop, hnone⟩
    obtain ⟨h01, h82, h47, hA2⟩ := (decodeOpcode_eq_none op).1 hnone
    exact ⟨op, Nat.le_of_lt_succ ((Memory.read_eq_ok ..).1 hop).1, hop, h01, h47, h82, hA2⟩
  · rintro ⟨op, -, hop, h01, h47, h82, hA2⟩
    exact ⟨op, hop, (decodeOpcode_eq_none op).2 ⟨h01, h82, h47, hA2⟩⟩

/-- Settles O33: the fault is the fetch's (`step_enters_unknownOpcode_iff`), on the bytes R202 names; its entry keeps the
output; and the byte `0x00` has no row. -/
theorem unknownOpcodeExactly : Obligations.UnknownOpcodeExactly := fun s hs =>
  ⟨(step_enters_unknownOpcode_iff s hs).trans (fetchInstr_eq_unknownOpcode_iff_bytes s),
    fun t h ht => by rw [(step_faulted s t _ h ht).2, State.raise_out],
    fun _ hop => step_of_fetchInstr_error s _ hs ((fetchInstr_eq_unknownOpcode s).2 ⟨_, hop, rfl⟩)⟩

/-! ## UnsupportedOperation (R203) -/

/-- Settles O34: the unit refuses SUB, code 2; the fetch has no such fault (`fetchInstr_error`), and neither has an
instruction. -/
theorem unsupportedOperationUnreached : Obligations.UnsupportedOperationUnreached := by
  refine ⟨⟨2#4, 0, 0, Config.regInit, aluUnit_unsupported _ _ _ _ (by decide) (by decide)⟩, fun s t h ht => ?_⟩
  rcases (step_faulted s t _ h ht).1 with hfetch | hk
  · exact (fetchInstr_error s _ hfetch).elim nofun nofun
  · cases hk

end Sys2Proof.Machine
end

section
/-! PROOF. Comments in the program text (60_exceptions.md R225). -/

namespace Sys2Proof.Machine

open Sys2Proof

/-- Text without `#` is kept, whatever follows it. -/
theorem stripComment_append (pre rest : Line) (h : '#' ∉ pre) :
    stripComment (pre ++ rest) = pre ++ stripComment rest :=
  List.takeWhile_append_of_pos fun _ hc => bne_iff_ne.2 (ne_of_mem_of_not_mem hc h)

@[simp] theorem stripComment_nil : stripComment [] = [] := rfl

@[simp] theorem stripComment_hash (rest : Line) : stripComment ('#' :: rest) = [] := rfl

/-- The first `#` ends what is kept of a line. -/
theorem stripComment_append_hash (pre rest : Line) (h : '#' ∉ pre) : stripComment (pre ++ '#' :: rest) = pre := by
  simpa using stripComment_append pre ('#' :: rest) h

theorem stripComment_eq_self (line : Line) (h : '#' ∉ line) : stripComment line = line := by
  simpa using stripComment_append line [] h

/-- A line contributes by its text without the comment only. -/
theorem parseLine_congr (line line' : Line) (h : stripComment line = stripComment line') :
    parseLine line = parseLine line' := by
  simp only [parseLine, h]

/-- Settles O53: both lines are stripped to `pre`, and so contribute the same. -/
theorem commentsDiscarded : Obligations.CommentsDiscarded := fun pre rest h => by
  have stripped := stripComment_append_hash pre rest h
  exact ⟨stripped, parseLine_congr _ _ (stripped.trans (stripComment_eq_self pre h).symm)⟩

end Sys2Proof.Machine
end

section
/-! PROOF. The decoder reads exactly the encodings, and rejects the rest by name (30_encoding.md sections 1 to 4). -/

namespace Sys2Proof

theorem decode_encode_append (i : Instr) (rest : List Byte) : decode (encode i ++ rest) = .ok (i, rest) := by
  cases i <;> rfl

/-- R87, R88: an opcode byte without a row is rejected whatever follows it. -/
theorem decode_of_unknown_opcode (op : Byte) (rest : List Byte) (h : decodeOpcode op = none) :
    decode (op :: rest) = .error (.unknownOpcode op) := by
  simp [decode, h]

theorem eq_encode_append_of_decode (bytes : List Byte) (i : Instr) (rest : List Byte)
    (h : decode bytes = .ok (i, rest)) : bytes = encode i ++ rest := by
  cases bytes with
  | nil => cases h
  | cons op tail =>
    cases hop : decodeOpcode op with
    | none => exact nomatch (decode_of_unknown_opcode op tail hop).symm.trans h
    | some row =>
      obtain ⟨kind, n⟩ := row
      obtain ⟨rfl, -⟩ := (decodeOpcode_eq_some ..).1 hop
      cases kind with
      | hlt => cases h; rfl
      | prn => cases tail <;> cases h; rfl
      | ldi | mul => rcases tail with _ | ⟨op1, _ | ⟨op2, tail⟩⟩ <;> cases h; rfl

/-- Settles O1: an encoding decodes to its instruction (`decode_encode_append`), and the decoder's answer names all the
bytes it has read (`eq_encode_append_of_decode`). -/
theorem decodeExactlyEncode : Obligations.DecodeExactlyEncode := fun bytes i rest =>
  ⟨eq_encode_append_of_decode bytes i rest, by rintro rfl; exact decode_encode_append i rest⟩

/-- Too few bytes after a kind's opcode byte are rejected by the name of the kind. -/
theorem decode_of_missing_operand (kind : Kind) (tail : List Byte) (h : tail.length < kind.operandBytes) :
    decode (kind.opcode :: tail) = .error (.missingOperand kind) := by
  cases kind with
  | hlt => simp at h
  | prn =>
    cases tail with
    | nil => rfl
    | cons op1 tail => simp at h
  | ldi | mul =>
    rcases tail with _ | ⟨op1, _ | ⟨op2, tail⟩⟩
    · rfl
    · rfl
    · simp at h

/-- Settles O3: a byte other than the four has no row (`decodeOpcode_eq_none`); the number of such bytes is counted. -/
theorem illegalOpcodesRejected : Obligations.IllegalOpcodesRejected :=
  ⟨fun op rest h01 h82 h47 hA2 =>
    decode_of_unknown_opcode op rest ((decodeOpcode_eq_none op).2 ⟨h01, h82, h47, hA2⟩), by decide +kernel⟩

/-- Settles O2: each word is the encoding of its instruction. -/
theorem writtenOutWordsDecode : Obligations.WrittenOutWordsDecode :=
  ⟨decode_encode_append .hlt [], decode_encode_append (.ldi 0 8) [], decode_encode_append (.prn 0) [],
    decode_encode_append (.mul 0 1) []⟩

end Sys2Proof
end

section
/-! PROOF. The fetch is the decoder on the bytes at the pc (42_execution_engine.md R171 to R174; 60_exceptions.md R206),
and what a step from Running makes of either answer. -/

namespace Sys2Proof.Machine

open Sys2Proof

/-! ## The bytes at an address -/

theorem Memory.read_of_lt (m : Memory) (a : Nat) (h : a < 256) : m.read a = .ok (m.lookup a) := if_pos h

theorem bytesAt_succ (m : Memory) (a n : Nat) (h : a < 256) :
    bytesAt m a (n + 1) = m.lookup a :: bytesAt m (a + 1) n := if_pos h

theorem bytesAt_of_past_end (m : Memory) (a n : Nat) (h : 256 ≤ a) : bytesAt m a n = [] := by
  cases n with
  | zero => rfl
  | succ n => exact if_neg (Nat.not_lt.2 h)

theorem length_bytesAt_le (m : Memory) (a n : Nat) : (bytesAt m a n).length ≤ 256 - a := by
  induction n generalizing a with
  | zero => simp [bytesAt]
  | succ n ih =>
    by_cases h : a < 256
    · rw [bytesAt_succ m a n h, List.length_cons]
      have := ih (a + 1)
      omega
    · simp [bytesAt_of_past_end m a _ (Nat.le_of_not_lt h)]

/-- Where a kind's operand bytes are all in memory, the bytes begin with the encoding they make with its opcode. -/
theorem bytesAt_eq_encode_append (m : Memory) (a : Nat) (kind : Kind) (hop : m.lookup a = kind.opcode)
    (hlt : a + kind.operandBytes < 256) :
    ∃ rest, bytesAt m a 3 = encode (kind.build (m.lookup (a + 1)) (m.lookup (a + 2))) ++ rest := by
  have h0 : a < 256 := by omega
  rw [bytesAt_succ m a 2 h0, hop]
  cases kind with
  | hlt => exact ⟨_, rfl⟩
  | prn => exact ⟨_, by rw [bytesAt_succ m (a + 1) 1 hlt]; rfl⟩
  | ldi | mul =>
    have h1 : a + 1 < 256 := Nat.lt_of_succ_lt hlt
    exact ⟨_, by rw [bytesAt_succ m _ 1 h1, bytesAt_succ m (a + 2) 0 hlt]; rfl⟩

/-! ## The fetch -/

/-- A fetch at 256 or above has no opcode byte. -/
theorem fetchInstr_of_past_end (s : State) (h : 256 ≤ s.pc) : fetchInstr s = .error .outOfBounds := by
  simp [fetchInstr, (Memory.read_eq_error s.mem s.pc .outOfBounds).2 ⟨h, rfl⟩]

/-- An operand byte past 255 faults the fetch, whichever of the two it is. -/
theorem fetchInstr_of_missing_operand (s : State) (kind : Kind) (hop : s.mem.read s.pc = .ok kind.opcode)
    (hge : 256 ≤ s.pc + kind.operandBytes) : fetchInstr s = .error .outOfBounds := by
  have hpc := ((Memory.read_eq_ok ..).1 hop).1
  cases kind with
  | hlt => exact absurd hpc (Nat.not_lt.2 hge)
  | prn =>
    have h1 : s.mem.read (s.pc + 1) = .error .outOfBounds := (Memory.read_eq_error ..).2 ⟨hge, rfl⟩
    simp [fetchInstr, hop, decodeOpcode_kind, fetchOperand, h1]
  | ldi => exact fetchInstr_two_operands_past_end s .ldi rfl hop (by simpa using hge)
  | mul => exact fetchInstr_two_operands_past_end s .mul rfl hop (by simpa using hge)

/-- Where all its bytes are in memory, the instruction is fetched. -/
theorem fetchInstr_of_operands (s : State) (kind : Kind) (hop : s.mem.read s.pc = .ok kind.opcode)
    (hlt : s.pc + kind.operandBytes < 256) :
    fetchInstr s = .ok (kind.build (s.mem.lookup (s.pc + 1)) (s.mem.lookup (s.pc + 2))) := by
  cases kind with
  | hlt => exact fetchInstr_hlt s hop
  | prn => simp [fetchInstr, hop, decodeOpcode_kind, fetchOperand, s.mem.read_of_lt (s.pc + 1) hlt, Kind.build]
  | ldi =>
    exact fetchInstr_two_operands s .ldi rfl _ _ hop
      (s.mem.read_of_lt _ (Nat.lt_of_succ_lt hlt)) (s.mem.read_of_lt _ hlt)
  | mul =>
    exact fetchInstr_two_operands s .mul rfl _ _ hop
      (s.mem.read_of_lt _ (Nat.lt_of_succ_lt hlt)) (s.mem.read_of_lt _ hlt)

/-- The checks of the fetch in their order (R206), each with what it answers. -/
theorem fetchInstr_cases (s : State) :
    (256 ≤ s.pc ∧ fetchInstr s = .error .outOfBounds) ∨
    (s.pc < 256 ∧ decodeOpcode (s.mem.lookup s.pc) = none ∧ fetchInstr s = .error .unknownOpcode) ∨
    (∃ kind : Kind, s.pc < 256 ∧ s.mem.lookup s.pc = kind.opcode ∧
      ((256 ≤ s.pc + kind.operandBytes ∧ fetchInstr s = .error .outOfBounds) ∨
       (s.pc + kind.operandBytes < 256 ∧
        fetchInstr s = .ok (kind.build (s.mem.lookup (s.pc + 1)) (s.mem.lookup (s.pc + 2)))))) := by
  rcases Nat.lt_or_ge s.pc 256 with hpc | hpc
  · have hread : s.mem.read s.pc = .ok (s.mem.lookup s.pc) := (Memory.read_eq_ok ..).2 ⟨hpc, rfl⟩
    cases hop : decodeOpcode (s.mem.lookup s.pc) with
    | none => exact .inr (.inl ⟨hpc, rfl, (fetchInstr_eq_unknownOpcode s).2 ⟨_, hread, hop⟩⟩)
    | some row =>
      obtain ⟨kind, n⟩ := row
      obtain ⟨hkind, -⟩ := (decodeOpcode_eq_some ..).1 hop
      rw [hkind] at hread
      refine .inr (.inr ⟨kind, hpc, hkind, ?_⟩)
      rcases Nat.lt_or_ge (s.pc + kind.operandBytes) 256 with hlt | hge
      · exact .inr ⟨hlt, fetchInstr_of_operands s kind hread hlt⟩
      · exact .inl ⟨hge, fetchInstr_of_missing_operand s kind hread hge⟩
  · exact .inl ⟨hpc, fetchInstr_of_past_end s hpc⟩

/-- The fault that fits a decoding error (60_exceptions.md R206). -/
def faultOfDecodeError : DecodeError → FaultKind
  | .noOpcode => .outOfBounds
  | .unknownOpcode _ => .unknownOpcode
  | .missingOperand _ => .outOfBounds

/-- The fetch gives the instruction that the at most three bytes at the pc decode to, or the fault that fits. -/
theorem fetchInstr_eq_decode (s : State) :
    fetchInstr s = ((decode (bytesAt s.mem s.pc 3)).map Prod.fst).mapError faultOfDecodeError := by
  rcases fetchInstr_cases s with ⟨hpc, hfetch⟩ | ⟨hpc, hop, hfetch⟩ | ⟨kind, hpc, hop, ⟨hge, hfetch⟩ | ⟨hlt, hfetch⟩⟩
  · rw [hfetch, bytesAt_of_past_end _ _ _ hpc]; rfl
  · rw [hfetch, bytesAt_succ _ _ 2 hpc, decode_of_unknown_opcode _ _ hop]; rfl
  · have hlen := length_bytesAt_le s.mem (s.pc + 1) 2
    rw [hfetch, bytesAt_succ _ _ 2 hpc, hop, decode_of_missing_operand kind _ (by omega)]; rfl
  · obtain ⟨rest, hbytes⟩ := bytesAt_eq_encode_append s.mem s.pc kind hop hlt
    rw [hfetch, hbytes, decode_encode_append]; rfl

theorem fetchInstr_of_decode_ok (s : State) (i : Instr) (rest : List Byte)
    (h : decode (bytesAt s.mem s.pc 3) = .ok (i, rest)) : fetchInstr s = .ok i := by
  rw [fetchInstr_eq_decode, h]; rfl

theorem fetchInstr_of_decode_error (s : State) (e : DecodeError)
    (h : decode (bytesAt s.mem s.pc 3) = .error e) : fetchInstr s = .error (faultOfDecodeError e) := by
  rw [fetchInstr_eq_decode, h]; rfl

/-! ## The step -/

/-- Settles O26: the fetch gives what the bytes decode to. -/
theorem stepRunsDecoded : Obligations.StepRunsDecoded := fun s i rest hs h =>
  step_of_fetchInstr_ok s i hs (fetchInstr_of_decode_ok s i rest h)

/-- Settles O27: each decoding error is the fetch's fault of `faultOfDecodeError`, which the step enters. -/
theorem stepFaultsOnUndecodable : Obligations.StepFaultsOnUndecodable := fun s hs => by
  have enters (e : DecodeError) (h : decode (bytesAt s.mem s.pc 3) = .error e) :
      step s = .next (s.raise (faultOfDecodeError e)) :=
    step_of_fetchInstr_error s _ hs (fetchInstr_of_decode_error s e h)
  exact ⟨enters .noOpcode, fun op => enters (.unknownOpcode op), fun kind => enters (.missingOperand kind)⟩

/-- Settles O28: the chain's branches are the cases of the fetch. -/
theorem stepChecksInOrder : Obligations.StepChecksInOrder := fun s hs => by
  rcases fetchInstr_cases s with ⟨hpc, hfetch⟩ | ⟨hpc, hop, hfetch⟩ | ⟨kind, hpc, hop, ⟨hge, hfetch⟩ | ⟨hlt, hfetch⟩⟩
  · rw [step_of_fetchInstr_error s _ hs hfetch, if_pos hpc]; rfl
  · rw [step_of_fetchInstr_error s _ hs hfetch, if_neg (by omega), hop]; rfl
  · rw [step_of_fetchInstr_error s _ hs hfetch, if_neg (by omega), hop, decodeOpcode_kind]
    exact (if_pos hge).symm
  · rw [step_of_fetchInstr_ok s _ hs hfetch, if_neg (by omega), hop, decodeOpcode_kind]
    exact (if_neg (by omega)).symm

/-- Settles O30: a step from Running is a fault's entry or an instruction's effect, and `exec` is total. -/
theorem runningAlwaysSteps : Obligations.RunningAlwaysSteps := fun s hs => by
  rcases step_running s hs with ⟨i, -, hstep⟩ | ⟨k, -, hstep⟩
  · rw [hstep]; exact exec_total i s
  · exact ⟨_, hstep⟩

/-- Settles O29: the two other run states have no step. -/
theorem terminalHasNoStep : Obligations.TerminalHasNoStep := fun s hs => by
  cases hrun : s.run with
  | running => exact absurd hrun hs
  | halted | faulted k => simp only [step, hrun]

/-- Settles O31: `step_faulted`, at its fault entry. -/
theorem faultsArePrecise : Obligations.FaultsArePrecise := fun s t k h ht => (step_faulted s t k h ht).2

end Sys2Proof.Machine
end

section
/-! PROOF. What an instruction and a step do to memory, the pc and the run state, and the machine's invariant
(10_state.md sections 2 and 3; 20_memory.md section 1; 60_exceptions.md R201). -/

namespace Sys2Proof.Machine

open Sys2Proof

/-! ## Memory -/

theorem exec_mem (i : Instr) (s t : State) (h : exec i s = .next t) : t.mem = s.mem := by
  rcases exec_cases i s t h with
    ⟨-, rfl⟩ | ⟨-, rfl⟩ | ⟨_, _, _, -, rfl⟩ | ⟨_, _, -, rfl⟩ | ⟨_, _, _, _, -, rfl⟩ <;> rfl

theorem step_mem (s t : State) (h : step s = .next t) : t.mem = s.mem := by
  obtain ⟨-, ⟨i, -, hexec⟩ | ⟨k, -, rfl⟩⟩ := step_cases s t h
  · exact exec_mem i s t hexec
  · exact State.raise_mem s k

/-- Settles O21: memory itself stays as it was. -/
theorem memoryNeverWritten : Obligations.MemoryNeverWritten :=
  ⟨fun i s t h a => by rw [exec_mem i s t h], fun s t h a => by rw [step_mem s t h]⟩

/-! ## The pc (R175) -/

theorem exec_pc (i : Instr) (s t : State) (h : exec i s = .next t) :
    (∃ k, t.run = .faulted k ∧ t.pc = s.pc) ∨ t.pc = s.pc + i.width := by
  rcases exec_cases i s t h with
    ⟨-, rfl⟩ | ⟨rfl, rfl⟩ | ⟨_, _, _, rfl, rfl⟩ | ⟨_, _, rfl, rfl⟩ | ⟨_, _, _, _, rfl, rfl⟩
  · exact .inl ⟨_, rfl, rfl⟩
  all_goals exact .inr rfl

theorem step_pc (s t : State) (h : step s = .next t) :
    (∃ k, t.run = .faulted k ∧ t.pc = s.pc) ∨ ∃ i, fetchInstr s = .ok i ∧ t.pc = s.pc + i.width := by
  obtain ⟨-, ⟨i, hfetch, hexec⟩ | ⟨k, -, rfl⟩⟩ := step_cases s t h
  · exact (exec_pc i s t hexec).imp_right fun hpc => ⟨i, hfetch, hpc⟩
  · exact .inl ⟨k, rfl, rfl⟩

/-- Settles O35: `step_pc`, with the four widths written out. -/
theorem pcAdvancesByWidth : Obligations.PcAdvancesByWidth := fun s t h =>
  (step_pc s t h).imp_right fun ⟨i, hfetch, hpc⟩ => ⟨i, hfetch, hpc, by cases i <;> rfl⟩

/-- A step leaves the pc at most at 256, where it was at most there. -/
theorem step_pc_le (s t : State) (hs : s.pc ≤ 256) (h : step s = .next t) : t.pc ≤ 256 := by
  rcases step_pc s t h with ⟨_, -, hpc⟩ | ⟨i, hfetch, hpc⟩
  · rw [hpc]; exact hs
  · rw [hpc]; exact (fetchInstr_ok s i hfetch).2.1

/-! ## OutOfBounds (R201) -/

theorem validIndex_eq_true (i : Byte) : validIndex i = true ↔ i.toNat < 8 := by simp [validIndex]

theorem validIndex_eq_false (i : Byte) : validIndex i = false ↔ 8 ≤ i.toNat := by simp [validIndex]

/-- An ill-formed instruction faults in every state. -/
theorem exec_of_ill_formed (i : Instr) (s : State) (hi : i.wellFormed = false) :
    exec i s = .next (s.raise .outOfBounds) := by
  cases i with
  | hlt => cases hi
  | ldi r imm => exact (execLdi_eq_next ..).2 (.inr ⟨(validIndex_eq_false r).1 hi, rfl⟩)
  | prn r => exact (execPrn_eq_next ..).2 (.inr ⟨(validIndex_eq_false r).1 hi, rfl⟩)
  | mul a b =>
    have hab : 8 ≤ a.toNat ∨ 8 ≤ b.toNat :=
      ((Bool.and_eq_false_iff ..).1 hi).imp (validIndex_eq_false a).1 (validIndex_eq_false b).1
    exact (execMul_eq_next ..).2 (.inr ⟨hab, rfl⟩)

/-- A well-formed instruction enters no fault. -/
theorem exec_run_of_well_formed (i : Instr) (s t : State) (hi : i.wellFormed = true) (h : exec i s = .next t) :
    t.run = s.run ∨ t.run = .halted := by
  cases i with
  | hlt => cases h; exact .inr rfl
  | ldi r imm =>
    rcases (execLdi_eq_next ..).1 h with ⟨_, rfl⟩ | ⟨hr, -⟩
    · exact .inl rfl
    · exact absurd ((validIndex_eq_true r).1 hi) (Nat.not_lt.2 hr)
  | prn r =>
    rcases (execPrn_eq_next ..).1 h with ⟨_, rfl⟩ | ⟨hr, -⟩
    · exact .inl rfl
    · exact absurd ((validIndex_eq_true r).1 hi) (Nat.not_lt.2 hr)
  | mul a b =>
    obtain ⟨ha, hb⟩ := (Bool.and_eq_true_iff ..).1 hi
    rcases (execMul_eq_next ..).1 h with ⟨_, _, rfl⟩ | ⟨hr | hr, -⟩
    · exact .inl rfl
    · exact absurd ((validIndex_eq_true a).1 ha) (Nat.not_lt.2 hr)
    · exact absurd ((validIndex_eq_true b).1 hb) (Nat.not_lt.2 hr)

/-- An instruction enters OutOfBounds from Running exactly where it is ill-formed. -/
theorem exec_enters_outOfBounds_iff (i : Instr) (s : State) (hs : s.run = .running) :
    (∃ t, exec i s = .next t ∧ t.run = .faulted .outOfBounds) ↔ i.wellFormed = false := by
  constructor
  · rintro ⟨t, h, ht⟩
    by_contra hi
    rcases exec_run_of_well_formed i s t (eq_true_of_ne_false hi) h with hrun | hrun
    · exact nomatch ht.symm.trans (hrun.trans hs)
    · exact nomatch ht.symm.trans hrun
  · exact fun hi => ⟨_, exec_of_ill_formed i s hi, rfl⟩

/-- With a kind's opcode byte at the pc, R201 names a missing operand byte and an index that is not valid. -/
theorem outOfBoundsCause_iff_of_opcode (s : State) (kind : Kind) (hpc : s.pc < 256)
    (hop : s.mem.lookup s.pc = kind.opcode) :
    s.outOfBoundsCause ↔ 256 ≤ s.pc + kind.operandBytes ∨
      (kind.build (s.mem.lookup (s.pc + 1)) (s.mem.lookup (s.pc + 2))).wellFormed = false := by
  cases kind <;>
    simp [State.outOfBoundsCause, hop, Kind.opcode, Kind.build, Instr.wellFormed, validIndex] <;> omega

/-- Without an opcode byte of the table at the pc, R201 names nothing. -/
theorem not_outOfBoundsCause_of_unknown_opcode (s : State) (hpc : s.pc < 256)
    (hop : decodeOpcode (s.mem.lookup s.pc) = none) : ¬ s.outOfBoundsCause := by
  obtain ⟨h01, h82, h47, hA2⟩ := (decodeOpcode_eq_none _).1 hop
  rintro (hge | ⟨h, -⟩ | ⟨h, -⟩ | ⟨h, -⟩)
  · exact Nat.not_lt.2 hge hpc
  · exact h47 h
  · exact h82 h
  · exact hA2 h

/-- A step whose fetch faults enters that fault. -/
theorem step_enters_iff_of_fetchInstr_error (s : State) (hs : s.run = .running) (k k' : FaultKind)
    (h : fetchInstr s = .error k) : (∃ t, step s = .next t ∧ t.run = .faulted k') ↔ k = k' := by
  rw [step_of_fetchInstr_error s k hs h]
  constructor
  · rintro ⟨t, ht, hrun⟩
    cases ht; cases hrun; rfl
  · rintro rfl
    exact ⟨_, rfl, rfl⟩

/-- Settles O32: in each case of the fetch, the fault entered is the one whose cause R201 names. -/
theorem outOfBoundsExactly : Obligations.OutOfBoundsExactly := fun s hs => by
  rcases fetchInstr_cases s with ⟨hpc, hfetch⟩ | ⟨hpc, hop, hfetch⟩ | ⟨kind, hpc, hop, ⟨hge, hfetch⟩ | ⟨hlt, hfetch⟩⟩
  · exact iff_of_true ((step_enters_iff_of_fetchInstr_error s hs _ _ hfetch).2 rfl) (.inl hpc)
  · rw [step_enters_iff_of_fetchInstr_error s hs _ _ hfetch]
    exact iff_of_false nofun (not_outOfBoundsCause_of_unknown_opcode s hpc hop)
  · rw [step_enters_iff_of_fetchInstr_error s hs _ _ hfetch, outOfBoundsCause_iff_of_opcode s kind hpc hop]
    exact iff_of_true rfl (.inl hge)
  · rw [step_of_fetchInstr_ok s _ hs hfetch, exec_enters_outOfBounds_iff _ s hs,
      outOfBoundsCause_iff_of_opcode s kind hpc hop, or_iff_right (Nat.not_le.2 hlt)]

/-! ## The invariant -/

/-- The run state a step leaves is explained: a halt by the HLT byte fetched, a fault by its cause. -/
theorem step_runExplained (s t : State) (h : step s = .next t) : t.runExplained := by
  obtain ⟨hs, hrun | ⟨hrun, hfetch⟩ | ⟨k, hrun⟩⟩ := step_run s t h
  · simp only [State.runExplained, hrun]
  · rw [step_of_fetchInstr_ok s .hlt hs hfetch] at h
    cases h
    exact ⟨Nat.le_add_left .., (fetchInstr_ok s .hlt hfetch).1⟩
  · obtain ⟨-, rfl⟩ := step_faulted s t k h hrun
    cases k with
    | outOfBounds => exact (outOfBoundsExactly s hs).1 ⟨_, h, hrun⟩
    | unknownOpcode =>
      have hfetch := (step_enters_unknownOpcode_iff s hs).1 ⟨_, h, hrun⟩
      obtain ⟨op, hop, hnone⟩ := (fetchInstr_eq_unknownOpcode s).1 hfetch
      obtain ⟨hpc, rfl⟩ := (Memory.read_eq_ok ..).1 hop
      exact ⟨Nat.le_of_lt_succ hpc, (decodeOpcode_eq_none _).1 hnone⟩
    | unsupportedOperation => exact unsupportedOperationUnreached.2 s _ h hrun

/-- Settles O37: memory is kept (`step_mem`), the pc stays in its bound (`step_pc_le`), and whatever run state the step
leaves is explained (`step_runExplained`). -/
theorem stepKeepsInvariant : Obligations.StepKeepsInvariant := fun s t ⟨hmem, hpc, _⟩ h =>
  ⟨step_mem s t h ▸ hmem, step_pc_le s t hpc h, step_runExplained s t h⟩

theorem inv_resetWith (init : RegFile) : (State.resetWith init).inv :=
  ⟨wf_resetWith init, Nat.zero_le _, trivial⟩

/-- Settles O38: `State.reset` is one of the reset states. -/
theorem resetMeetsInvariant : Obligations.ResetMeetsInvariant := ⟨inv_resetWith _, inv_resetWith⟩

/-- Settles O39: a load changes memory alone, keeps it canonical (`wf_load`), and Running needs no explanation. -/
theorem loadKeepsInvariant : Obligations.LoadKeepsInvariant := fun s t bytes ⟨hmem, hpc, _⟩ hs h => by
  have hrun : t.run = .running := (load_run s t bytes h).trans hs
  refine ⟨wf_load s t bytes hmem h, ?_, by simp only [State.runExplained, hrun]⟩
  obtain ⟨-, rfl⟩ := (load_eq_ok ..).1 h
  exact hpc

end Sys2Proof.Machine
end

section
/-! PROOF. Memory written and loaded (20_memory.md sections 1, 2 and 5; 70_reset_and_hazards.md section 2), and the
machine after a reset (10_state.md section 7). -/

namespace Sys2Proof.Machine

open Sys2Proof

theorem Memory.read_of_lookup_eq (m m' : Memory) (a : Nat) (h : m.lookup a = m'.lookup a) : m.read a = m'.read a := by
  rw [Memory.read, Memory.read, h]

/-- Settles O5: what a store changes is `Memory.lookup_store`, and its canonical form `Memory.wf_store`. -/
theorem memoryWriteThenRead : Obligations.MemoryWriteThenRead := fun m a v hm => by
  refine ⟨fun ha => ⟨m.store a v, (m.write_eq_ok _ a v).2 ⟨ha, rfl⟩, m.wf_store hm a ha v, ?_, fun b hb => ?_⟩,
    fun ha => ⟨(m.write_eq_error a v _).2 ⟨ha, rfl⟩, (m.read_eq_error a _).2 ⟨ha, rfl⟩⟩⟩
  · rw [Memory.read_of_lt _ a ha, m.lookup_store hm, if_pos rfl]
  · exact Memory.read_of_lookup_eq _ _ b (by rw [m.lookup_store hm, if_neg hb])

/-- What an address reads after bytes are placed from 0 in an empty memory. -/
theorem Memory.read_place_nil (bytes : List Byte) (n : Nat) (h : n < 256) :
    (Memory.place [] 0 bytes).read n = .ok (bytes.getD n 0x00#8) := by
  rw [Memory.read_of_lt _ n h, Memory.lookup_place bytes [] Memory.wf_nil, if_pos ⟨Nat.zero_le n, h⟩]; rfl

/-- Settles O6: the load succeeds by the length, and every address reads as `Memory.read_place_nil` says. -/
theorem loadedBytesReadBack : Obligations.LoadedBytesReadBack := fun init bytes hlen => by
  refine ⟨_, (load_eq_ok ..).2 ⟨hlen, rfl⟩, fun n h => ?_, fun n hge h => ?_, rfl, rfl, rfl, rfl⟩
  · exact (Memory.read_place_nil bytes n (by omega)).trans (by rw [List.getD_eq_getElem _ _ h])
  · exact (Memory.read_place_nil bytes n h).trans (by rw [List.getD_eq_default _ _ hge])

/-- A load fails on more bytes than there are cells, and only with Overflow. -/
theorem load_eq_error (s : State) (bytes : List Byte) (e : LoaderError) :
    load s bytes = .error e ↔ 256 < bytes.length ∧ e = .overflow := by
  by_cases h : 256 < bytes.length
  · simp [load, h, eq_comm]
  · simp [load, h]

/-- Settles O7: the length is checked before any write (`load_eq_error`). -/
theorem overlongLoadOverflows : Obligations.OverlongLoadOverflows := fun s bytes h =>
  (load_eq_error s bytes _).2 ⟨h, rfl⟩

/-! ## After a reset -/

theorem resetWith_read (init : RegFile) (a : Nat) (h : a < 256) : (State.resetWith init).mem.read a = .ok 0x00#8 :=
  Memory.read_of_lt [] a h

/-- Settles O42: a reset leaves no listed cell (`resetWith_read`), and the host's reset leaves the reset machine. -/
theorem resetState : Obligations.ResetState :=
  ⟨fun init => ⟨resetWith_read init, rfl, rfl, rfl, rfl⟩,
    fun x => ⟨Session.start, x.perform_reset, rfl, resetWith_read _, rfl, rfl, rfl, rfl⟩⟩

/-- Settles O43: the registers of `State.reset` are `Config.regInit`, eight times zero. -/
theorem resetRegistersChosenZero : Obligations.ResetRegistersChosenZero :=
  ⟨⟨Config.regInit, rfl⟩, fun i hi =>
    (regGet_eq_ok ..).2 ⟨hi, by simp [State.reset, Config.regInit]⟩⟩

/-- Settles O44: the fetch reads `0x00` at address 0, which has no row (`fetchInstr_eq_unknownOpcode`). -/
theorem emptyMachineFaultsFirst : Obligations.EmptyMachineFaultsFirst := fun init =>
  step_of_fetchInstr_error _ _ rfl
    ((fetchInstr_eq_unknownOpcode _).2 ⟨0x00#8, resetWith_read init 0 (by decide), rfl⟩)

end Sys2Proof.Machine
end

section
/-! PROOF. The register ports and the alu_unit on every index (10_state.md section 1; 40_alu_unit.md sections 1
and 2). -/

namespace Sys2Proof.Machine

open Sys2Proof

theorem regGet_set_self (regs : RegFile) (i v : Byte) (hi : i.toNat < 8) : regGet (regs.set i.toNat v) i = .ok v :=
  (regGet_eq_ok ..).2 ⟨hi, by rw [Vector.getElem_set_self]⟩

theorem toNat_ofInt_byte (v : Int) : ((BitVec.ofInt 8 v).toNat : Int) = v % 256 := by
  rw [BitVec.toNat_ofInt]; omega

/-- Settles O8: the value is read back as it was stored (`regGet_set_self`), and every other index reads as before
(`regGet_set_of_ne`). -/
theorem registerSetThenGet : Obligations.RegisterSetThenGet := fun regs i v =>
  ⟨fun hi => ⟨_, _, (regSet_eq_ok ..).2 ⟨hi, rfl⟩, regGet_set_self regs i _ hi, toNat_ofInt_byte v,
      fun j hj => regGet_set_of_ne regs i j _ hi hj⟩,
    fun hi => ⟨(regSet_eq_error ..).2 ⟨hi, rfl⟩, (regGet_eq_error ..).2 ⟨hi, rfl⟩⟩⟩

/-- Settles O9: the codes 0 and 1 compute the sum and the product (`aluBinary_writes_mod`), and any operation that
computes faults on an index of 8 or more (`aluBinary_eq_error`). -/
theorem aluComputesModulo256 : Obligations.AluComputesModulo256 := fun a b regs => by
  rw [aluUnit_add, aluUnit_mul]
  exact ⟨fun ha hb => ⟨aluBinary_writes_mod (fun x y => x + y) a b regs ha hb,
      aluBinary_writes_mod (fun x y => x * y) a b regs ha hb⟩,
    fun hab => ⟨(aluBinary_eq_error ..).2 ⟨hab, rfl⟩, (aluBinary_eq_error ..).2 ⟨hab, rfl⟩⟩⟩

end Sys2Proof.Machine
end

section
/-! PROOF. What each instruction does, in exec and from memory, and the registers, output and run state it leaves
(41_instructions.md section 2; 10_state.md sections 1, 3 and 4). -/

namespace Sys2Proof.Machine

open Sys2Proof

/-! ## The instructions (R142 to R145) -/

/-- Settles O13: HLT advances the pc over its one byte and halts. -/
theorem hltResult : Obligations.HltResult := fun _ => rfl

/-- Settles O14: the two answers of `execLdi_eq_next`. -/
theorem ldiResult : Obligations.LdiResult := fun _ _ _ =>
  ⟨fun hr => (execLdi_eq_next ..).2 (.inl ⟨hr, rfl⟩), fun hr => (execLdi_eq_next ..).2 (.inr ⟨hr, rfl⟩)⟩

/-- Settles O15: the two answers of `execPrn_eq_next`. -/
theorem prnResult : Obligations.PrnResult := fun _ _ =>
  ⟨fun hr => (execPrn_eq_next ..).2 (.inl ⟨hr, rfl⟩), fun hr => (execPrn_eq_next ..).2 (.inr ⟨hr, rfl⟩)⟩

/-- Settles O16: the two answers of `execMul_eq_next`, the product as R145 writes it. -/
theorem mulResult : Obligations.MulResult := fun a b s => by
  refine ⟨fun ha hb => ?_, fun hab => (execMul_eq_next ..).2 (.inr ⟨hab, rfl⟩)⟩
  rw [ofNat_mul_mod_256]
  exact (execMul_eq_next ..).2 (.inl ⟨ha, hb, rfl⟩)

theorem fetchInstr_prn (s : State) (r : Byte) (hop : s.mem.read s.pc = .ok Kind.prn.opcode)
    (h1 : s.mem.read (s.pc + 1) = .ok r) : fetchInstr s = .ok (.prn r) := by
  obtain ⟨hlt, hr⟩ := (Memory.read_eq_ok ..).1 h1
  rw [fetchInstr_of_operands s .prn hop hlt, hr]; rfl

/-- Settles O19: the fetch is `fetchInstr_prn`, the effect `prnResult`; at 255 the operand byte is missing; and the one
register PRN reads is looked up among the marks first. -/
theorem prnFromMemory : Obligations.PrnFromMemory := by
  refine ⟨fun _ => rfl, fun s hs hop => ⟨fun r h1 => ?_, fun hpc => ?_⟩, fun t r ht hop h1 hr hw => ?_⟩
  · rw [step_of_fetchInstr_ok s _ hs (fetchInstr_prn s r hop h1)]
    exact prnResult r s
  · have hge : 256 ≤ s.pc + Kind.prn.operandBytes := by rw [hpc]; rfl
    exact step_of_fetchInstr_error s _ hs (fetchInstr_of_missing_operand s .prn hop hge)
  · simp only [stepTracked, ht, fetchInstr_prn t.machine r hop h1, readsRegs, firstUnwritten, hr, hw]
    rfl

/-! ## The registers written and read (R24) -/

/-- Settles O22: HLT and PRN have no effect on the register file, and LDI and MUL set one register of it
(`regGet_set_of_ne`). -/
theorem registersWrittenAsListed : Obligations.RegistersWrittenAsListed := by
  refine ⟨fun s t h => ?_, fun r s t h => ?_, fun r imm s t h j hj => ?_, fun a b s t h j hj => ?_⟩
  · cases h; rfl
  · rcases (execPrn_eq_next ..).1 h with ⟨_, rfl⟩ | ⟨-, rfl⟩ <;> rfl
  · rcases (execLdi_eq_next ..).1 h with ⟨hr, rfl⟩ | ⟨-, rfl⟩
    · exact regGet_set_of_ne s.regs r j imm hr hj
    · rfl
  · rcases (execMul_eq_next ..).1 h with ⟨ha, _, rfl⟩ | ⟨-, rfl⟩
    · exact regGet_set_of_ne s.regs a j _ ha hj
    · rfl

theorem getElem_eq_of_regGet_eq (regs regs' : RegFile) (i : Byte) (hi : i.toNat < 8)
    (h : regGet regs i = regGet regs' i) : regs[i.toNat] = regs'[i.toNat] := by
  simpa [regGet, hi] using h

/-- One write to two register files: an index reads alike in both, or each file keeps what it held there. -/
theorem regGet_set_alike_or_kept (regs regs' : RegFile) (i v : Byte) (hi : i.toNat < 8) (j : Byte) :
    regGet (regs.set i.toNat v) j = regGet (regs'.set i.toNat v) j ∨
      (regGet (regs.set i.toNat v) j = regGet regs j ∧ regGet (regs'.set i.toNat v) j = regGet regs' j) := by
  by_cases hj : j = i
  · subst hj
    exact .inl ((regGet_set_self regs j v hi).trans (regGet_set_self regs' j v hi).symm)
  · exact .inr ⟨regGet_set_of_ne regs i j v hi hj, regGet_set_of_ne regs' i j v hi hj⟩

/-- Settles O23: the registers an instruction reads decide the value it emits or writes; where it writes, the two
register files are as `regGet_set_alike_or_kept` says, and where it does not, both are kept. -/
theorem registersReadAsListed : Obligations.RegistersReadAsListed := fun i s regs t hprn hmul h => by
  have kept (j : Byte) : regGet regs j = regGet s.regs j ∨
      (regGet regs j = regGet regs j ∧ regGet s.regs j = regGet s.regs j) := .inr ⟨rfl, rfl⟩
  cases i with
  | hlt => cases h; exact ⟨regs, rfl, kept⟩
  | ldi r imm =>
    rcases (execLdi_eq_next ..).1 h with ⟨hr, rfl⟩ | ⟨hr, rfl⟩
    · exact ⟨_, (execLdi_eq_next ..).2 (.inl ⟨hr, rfl⟩), regGet_set_alike_or_kept regs s.regs r imm hr⟩
    · exact ⟨regs, (execLdi_eq_next ..).2 (.inr ⟨hr, rfl⟩), kept⟩
  | prn r =>
    rcases (execPrn_eq_next ..).1 h with ⟨hr, rfl⟩ | ⟨hr, rfl⟩
    · rw [← getElem_eq_of_regGet_eq regs s.regs r hr (hprn r rfl)]
      exact ⟨regs, (execPrn_eq_next ..).2 (.inl ⟨hr, rfl⟩), kept⟩
    · exact ⟨regs, (execPrn_eq_next ..).2 (.inr ⟨hr, rfl⟩), kept⟩
  | mul a b =>
    rcases (execMul_eq_next ..).1 h with ⟨ha, hb, rfl⟩ | ⟨hab, rfl⟩
    · obtain ⟨hreada, hreadb⟩ := hmul a b rfl
      rw [← getElem_eq_of_regGet_eq regs s.regs a ha hreada, ← getElem_eq_of_regGet_eq regs s.regs b hb hreadb]
      exact ⟨_, (execMul_eq_next ..).2 (.inl ⟨ha, hb, rfl⟩), regGet_set_alike_or_kept regs s.regs a _ ha⟩
    · exact ⟨regs, (execMul_eq_next ..).2 (.inr ⟨hab, rfl⟩), kept⟩

/-! ## The output (R33) and the run state (R31, R32) -/

theorem exec_out_of_not_prn (i : Instr) (s t : State) (h : exec i s = .next t) (hi : ∀ r, i ≠ .prn r) :
    t.out = s.out := by
  rcases exec_cases i s t h with
    ⟨-, rfl⟩ | ⟨-, rfl⟩ | ⟨_, _, _, -, rfl⟩ | ⟨r, _, hprn, -⟩ | ⟨_, _, _, _, -, rfl⟩
  · rfl
  · rfl
  · rfl
  · exact absurd hprn (hi r)
  · rfl

theorem exec_prn_out (r : Byte) (s t : State) (h : exec (.prn r) s = .next t) :
    t.out = s.out ∧ t.run = .faulted .outOfBounds ∨ ∃ v, regGet s.regs r = .ok v ∧ t.out = s.out ++ [v] := by
  rcases (execPrn_eq_next ..).1 h with ⟨hr, rfl⟩ | ⟨-, rfl⟩
  · exact .inr ⟨_, (regGet_eq_ok ..).2 ⟨hr, rfl⟩, rfl⟩
  · exact .inl ⟨rfl, rfl⟩

theorem step_out (s t : State) (h : step s = .next t) : t.out = s.out ∨
    ∃ r v, fetchInstr s = .ok (.prn r) ∧ regGet s.regs r = .ok v ∧ t.out = s.out ++ [v] := by
  obtain ⟨-, ⟨i, hfetch, hexec⟩ | ⟨k, -, rfl⟩⟩ := step_cases s t h
  · by_cases hi : ∃ r, i = .prn r
    · obtain ⟨r, rfl⟩ := hi
      exact (exec_prn_out r s t hexec).imp And.left fun ⟨v, hv, hout⟩ => ⟨r, v, hfetch, hv, hout⟩
    · exact .inl (exec_out_of_not_prn i s t hexec (not_exists.1 hi))
  · exact .inl (State.raise_out s k)

/-- Settles O24: by `exec_out_of_not_prn`, `exec_prn_out` and `step_out`. -/
theorem outputOnlyByPrn : Obligations.OutputOnlyByPrn := ⟨exec_out_of_not_prn, exec_prn_out, step_out⟩

/-- Settles O25: of the answers of `exec_cases` the fault enters OutOfBounds, HLT halts, and the others keep the run
state. -/
theorem runStateFrame : Obligations.RunStateFrame := fun i s t h => by
  refine ⟨fun hi => ?_, by rintro rfl; cases h; rfl⟩
  rcases exec_cases i s t h with
    ⟨-, rfl⟩ | ⟨hhlt, -⟩ | ⟨_, _, _, -, rfl⟩ | ⟨_, _, -, rfl⟩ | ⟨_, _, _, _, -, rfl⟩
  · exact .inr (State.raise_run ..)
  · exact absurd hhlt hi
  all_goals exact .inl rfl

end Sys2Proof.Machine
end

section
/-! PROOF. Every run ends (42_execution_engine.md R179, R180). -/

namespace Sys2Proof.Machine

open Sys2Proof

theorem two_le_width (i : Instr) (hi : i ≠ .hlt) : 2 ≤ i.width := by
  cases i with
  | hlt => exact absurd rfl hi
  | ldi | prn | mul => simp [Instr.width, Instr.kind]

/-- A step that stays Running has fetched at least two bytes, all of them in memory. -/
theorem step_pc_of_still_running (s t : State) (h : step s = .next t) (ht : t.run = .running) :
    s.pc + 2 ≤ t.pc ∧ t.pc ≤ 256 := by
  rcases step_pc s t h with ⟨k, hk, -⟩ | ⟨i, hfetch, hpc⟩
  · exact nomatch ht.symm.trans hk
  · have hi : i ≠ .hlt := by
      rintro rfl
      rw [step_of_fetchInstr_ok s .hlt (step_cases s t h).1 hfetch] at h
      cases h; cases ht
    have hwidth := two_le_width i hi
    have hlast := (fetchInstr_ok s i hfetch).2.1
    omega

theorem core_run_succ_of_step (n : Nat) (s t : State) (h : step s = .next t) :
    Host.Core.run core (n + 1) s = Host.Core.run core n t := by
  rw [core_run_succ, h]

/-- Settles O40, by induction on the bytes left before 256: a step that stays Running uses up two of them. -/
theorem everyRunEnds : Obligations.EveryRunEnds := fun s hs => by
  induction hleft : 256 - s.pc using Nat.strongRecOn generalizing s with
  | ind left ih =>
    obtain ⟨t, hstep⟩ := runningAlwaysSteps s hs
    by_cases ht : t.run = .running
    · have hpc := step_pc_of_still_running s t hstep ht
      obtain ⟨n, hn, u, hrun, hu⟩ := ih (256 - t.pc) (by omega) t ht rfl
      exact ⟨n + 1, by omega, u, (core_run_succ_of_step n s t hstep).trans hrun, hu⟩
    · exact ⟨1, Nat.le_add_left .., t, core_run_succ_of_step 0 s t hstep, ht⟩

theorem runFor_succ_of_step (n : Nat) (s t : State) (h : step s = .next t) : runFor (n + 1) s = runFor n t := by
  simp only [runFor, h]

theorem runFor_of_not_running (n : Nat) (s : State) (hs : s.run ≠ .running) : runFor n s = s := by
  cases n with
  | zero => rfl
  | succ n => simp only [runFor, terminalHasNoStep s hs]

/-- A run of enough steps gives the terminal state that single steps reach. -/
theorem runFor_of_core_run (n fuel : Nat) (s t : State) (hfuel : n ≤ fuel) (hrun : Host.Core.run core n s = .next t)
    (ht : t.run ≠ .running) : runFor fuel s = t := by
  induction n generalizing s fuel with
  | zero => cases hrun; exact runFor_of_not_running fuel _ ht
  | succ n ih =>
    obtain ⟨fuel, rfl⟩ := Nat.exists_eq_add_one_of_ne_zero (Nat.ne_zero_of_lt hfuel)
    cases hstep : step s with
    | next s' =>
      rw [core_run_succ_of_step n s s' hstep] at hrun
      rw [runFor_succ_of_step fuel s s' hstep]
      exact ih fuel s' (Nat.le_of_succ_le_succ hfuel) hrun
    | fault r => rw [core_run_succ, hstep] at hrun; cases hrun
    | refused r => rw [core_run_succ, hstep] at hrun; cases hrun

/-- Settles O41: 129 bounds the steps of `everyRunEnds`, whose last state `runFor_of_core_run` gives; and a terminal
state is its own. -/
theorem runToEndIsTerminal : Obligations.RunToEndIsTerminal := fun s => by
  by_cases hs : s.run = .running
  · obtain ⟨n, hn, t, hrun, ht⟩ := everyRunEnds s hs
    have hle : n ≤ 129 := by omega
    have hend : runToEnd s = t := runFor_of_core_run n 129 s t hle hrun ht
    rw [hend]
    exact ⟨ht, ⟨n, hle, hrun⟩, fun hterminal => absurd hs hterminal⟩
  · have hend : runToEnd s = s := runFor_of_not_running 129 s hs
    rw [hend]
    exact ⟨hs, ⟨0, Nat.zero_le _, rfl⟩, fun _ => rfl⟩

end Sys2Proof.Machine
end

section
/-! PROOF. The mode `unwritten` (10_state.md R22, R23; 60_exceptions.md R204; 92_eei_decisions.md D4): when its step is
the model fault, that it steps as the machine does, and that it never sees what an unmarked register holds. -/

namespace Sys2Proof.Machine

open Sys2Proof

/-! ## The step of the mode -/

theorem stepTracked_of_not_running (t : Tracked) (ht : t.machine.run ≠ .running) :
    stepTracked t = .fault .terminal := by
  cases hrun : t.machine.run with
  | running => exact absurd hrun ht
  | halted | faulted k => simp only [stepTracked, hrun]

theorem stepTracked_of_fetchInstr_error (t : Tracked) (k : FaultKind) (ht : t.machine.run = .running)
    (hfetch : fetchInstr t.machine = .error k) : stepTracked t = .next { t with machine := t.machine.raise k } := by
  simp only [stepTracked, ht, hfetch]

theorem stepTracked_of_firstUnwritten (t : Tracked) (i : Instr) (r : Byte) (ht : t.machine.run = .running)
    (hfetch : fetchInstr t.machine = .ok i) (hr : firstUnwritten t.written (readsRegs i) = some r) :
    stepTracked t = .fault (.unwrittenRegisterRead r) := by
  simp only [stepTracked, ht, hfetch, hr]

/-- Everything the step of the mode can answer from Running. -/
theorem stepTracked_running (t : Tracked) (ht : t.machine.run = .running) :
    (∃ k, fetchInstr t.machine = .error k ∧ stepTracked t = .next { t with machine := t.machine.raise k }) ∨
    (∃ i r, fetchInstr t.machine = .ok i ∧ firstUnwritten t.written (readsRegs i) = some r ∧
      stepTracked t = .fault (.unwrittenRegisterRead r)) ∨
    (∃ i s, fetchInstr t.machine = .ok i ∧ firstUnwritten t.written (readsRegs i) = none ∧
      exec i t.machine = .next s ∧
      stepTracked t = .next { machine := s, written := markWritten t.written (writesReg i) }) := by
  cases hfetch : fetchInstr t.machine with
  | error k => exact .inl ⟨k, rfl, stepTracked_of_fetchInstr_error t k ht hfetch⟩
  | ok i =>
    cases hr : firstUnwritten t.written (readsRegs i) with
    | some r => exact .inr (.inl ⟨i, r, rfl, hr, stepTracked_of_firstUnwritten t i r ht hfetch hr⟩)
    | none =>
      obtain ⟨s, hexec⟩ := exec_total i t.machine
      exact .inr (.inr ⟨i, s, rfl, hr, hexec, stepTracked_of_fetchInstr_ok t i s ht hfetch hr hexec⟩)

/-! ## The model fault (R204) -/

theorem firstUnwritten_cons_eq_some (written : Vector Bool 8) (i r : Byte) (rest : List Byte) :
    firstUnwritten written (i :: rest) = some r ↔
      ∃ _ : i.toNat < 8, (written[i.toNat] = false ∧ i = r) ∨
        (written[i.toNat] = true ∧ firstUnwritten written rest = some r) := by
  by_cases hi : i.toNat < 8
  · cases hw : written[i.toNat] <;> simp [firstUnwritten, hi, hw]
  · simp [firstUnwritten, hi]

theorem firstUnwritten_singleton_eq_some (written : Vector Bool 8) (i r : Byte) :
    firstUnwritten written [i] = some r ↔ i = r ∧ ∃ _ : r.toNat < 8, written[r.toNat] = false := by
  rw [firstUnwritten_cons_eq_some]
  constructor
  · rintro ⟨hi, ⟨hw, rfl⟩ | ⟨-, h⟩⟩
    · exact ⟨rfl, hi, hw⟩
    · cases h
  · rintro ⟨rfl, hi, hw⟩
    exact ⟨hi, .inl ⟨hw, rfl⟩⟩

/-- The mode is about to read an unwritten register exactly where it is the first one that the fetched instruction is to
read. -/
theorem unwrittenReadCause_iff (t : Tracked) (r : Byte) :
    t.unwrittenReadCause r ↔
      ∃ i, fetchInstr t.machine = .ok i ∧ firstUnwritten t.written (readsRegs i) = some r := by
  constructor
  · rintro ⟨hr, hw, hfetch | ⟨b, hfetch⟩ | ⟨a, hfetch, ha, hwa⟩⟩
    · exact ⟨_, hfetch, (firstUnwritten_singleton_eq_some ..).2 ⟨rfl, hr, hw⟩⟩
    · exact ⟨_, hfetch, (firstUnwritten_cons_eq_some ..).2 ⟨hr, .inl ⟨hw, rfl⟩⟩⟩
    · exact ⟨_, hfetch, (firstUnwritten_cons_eq_some ..).2
        ⟨ha, .inr ⟨hwa, (firstUnwritten_singleton_eq_some ..).2 ⟨rfl, hr, hw⟩⟩⟩⟩
  · rintro ⟨i, hfetch, hfirst⟩
    cases i with
    | hlt => cases hfirst
    | ldi a imm => cases hfirst
    | prn a =>
      obtain ⟨rfl, hr, hw⟩ := (firstUnwritten_singleton_eq_some ..).1 hfirst
      exact ⟨hr, hw, .inl hfetch⟩
    | mul a b =>
      obtain ⟨ha, ⟨hw, rfl⟩ | ⟨hwa, hfirst⟩⟩ := (firstUnwritten_cons_eq_some ..).1 hfirst
      · exact ⟨ha, hw, .inr (.inl ⟨b, hfetch⟩)⟩
      · obtain ⟨rfl, hr, hw⟩ := (firstUnwritten_singleton_eq_some ..).1 hfirst
        exact ⟨hr, hw, .inr (.inr ⟨a, hfetch, ha, hwa⟩)⟩

/-- Settles O45: of the answers of `stepTracked_running` only the second is this fault, in the case that
`unwrittenReadCause_iff` describes. -/
theorem unwrittenReadExactly : Obligations.UnwrittenReadExactly := fun t r ht => by
  rw [unwrittenReadCause_iff]
  constructor
  · intro h
    rcases stepTracked_running t ht with ⟨k, -, hstep⟩ | ⟨i, r', hfetch, hfirst, hstep⟩ | ⟨i, s, -, -, -, hstep⟩
    · cases hstep.symm.trans h
    · cases hstep.symm.trans h
      exact ⟨i, hfetch, hfirst⟩
    · cases hstep.symm.trans h
  · rintro ⟨i, hfetch, hfirst⟩
    exact stepTracked_of_firstUnwritten t i r ht hfetch hfirst

/-! ## The marks, and the step of the machine -/

/-- A step that answers a next state is a fault of the fetch or an instruction that reads no unmarked register. -/
theorem stepTracked_cases (t u : Tracked) (h : stepTracked t = .next u) :
    t.machine.run = .running ∧
      ((∃ k, fetchInstr t.machine = .error k ∧ u = { t with machine := t.machine.raise k }) ∨
       (∃ i s, fetchInstr t.machine = .ok i ∧ firstUnwritten t.written (readsRegs i) = none ∧
        exec i t.machine = .next s ∧ u = { machine := s, written := markWritten t.written (writesReg i) })) := by
  by_cases ht : t.machine.run = .running
  · refine ⟨ht, ?_⟩
    rcases stepTracked_running t ht with
      ⟨k, hfetch, hstep⟩ | ⟨i, r, -, -, hstep⟩ | ⟨i, s, hfetch, hfirst, hexec, hstep⟩
    · cases hstep.symm.trans h; exact .inl ⟨k, hfetch, rfl⟩
    · cases hstep.symm.trans h
    · cases hstep.symm.trans h; exact .inr ⟨i, s, hfetch, hfirst, hexec, rfl⟩
  · cases (stepTracked_of_not_running t ht).symm.trans h

theorem step_of_stepTracked (t u : Tracked) (h : stepTracked t = .next u) : step t.machine = .next u.machine := by
  obtain ⟨ht, ⟨k, hfetch, rfl⟩ | ⟨i, s, hfetch, -, hexec, rfl⟩⟩ := stepTracked_cases t u h
  · exact step_of_fetchInstr_error t.machine k ht hfetch
  · exact (step_of_fetchInstr_ok t.machine i ht hfetch).trans hexec

theorem markWritten_some_eq_true (written : Vector Bool 8) (i : Byte) (j : Fin 8) :
    (markWritten written (some i))[j] = true ↔ written[j] = true ∨ i.toNat = j.val := by
  rw [markWritten_some_getElem, Bool.or_eq_true, decide_eq_true_iff, or_comm]

/-- Where no unmarked read is ahead, a valid index that is next is marked. -/
theorem marked_of_firstUnwritten_eq_none {written : Vector Bool 8} {i : Byte} {rest : List Byte}
    (h : firstUnwritten written (i :: rest) = none) (hi : i.toNat < 8) :
    written[i.toNat] = true ∧ firstUnwritten written rest = none := by
  rcases (firstUnwritten_cons_eq_none ..).1 h with hge | ⟨_, hmarked⟩
  · exact absurd hi (Nat.not_lt.2 hge)
  · exact hmarked

/-- An instruction that reads no unmarked register marks one where it is an LDI of it, and no other: the target of a MUL
is one of the registers it reads. -/
theorem markWritten_writesReg_eq_true (written : Vector Bool 8) (i : Instr)
    (hfirst : firstUnwritten written (readsRegs i) = none) (j : Fin 8) :
    (markWritten written (writesReg i))[j] = true ↔
      written[j] = true ∨ ∃ r imm, i = .ldi r imm ∧ r.toNat = j.val := by
  cases i with
  | hlt => simp [writesReg]
  | prn r => simp [writesReg]
  | ldi r imm =>
    rw [writesReg, markWritten_some_eq_true]
    simp
  | mul a b =>
    have target_marked (ha : a.toNat = j.val) : written[j] = true := by
      simpa only [Fin.getElem_fin, ha] using (marked_of_firstUnwritten_eq_none hfirst (ha ▸ j.isLt)).1
    rw [writesReg, markWritten_some_eq_true]
    simpa using target_marked

/-- Settles O46: without a cause the answer is one of the two next states of `stepTracked_running`; either is the
machine's (`step_of_stepTracked`), and the marks are those of `markWritten_writesReg_eq_true`. -/
theorem trackedStepIsStep : Obligations.TrackedStepIsStep := by
  refine ⟨fun t ht hcause => ?_, fun t u h => ⟨step_of_stepTracked t u h, fun j => ?_⟩⟩
  · rcases stepTracked_running t ht with ⟨k, -, hstep⟩ | ⟨i, r, hfetch, hfirst, -⟩ | ⟨i, s, -, -, -, hstep⟩
    · exact ⟨_, hstep⟩
    · exact absurd ((unwrittenReadCause_iff t r).2 ⟨i, hfetch, hfirst⟩) (hcause r)
    · exact ⟨_, hstep⟩
  · obtain ⟨-, ⟨k, hfetch, rfl⟩ | ⟨i, s, hfetch, hfirst, -, rfl⟩⟩ := stepTracked_cases t u h
    · simp [hfetch]
    · rw [markWritten_writesReg_eq_true t.written i hfirst, hfetch]
      simp only [Except.ok.injEq]

/-! ## Contents that are never seen -/

/-- Two register files that hold the same in every marked register. -/
def RegsAgree (written : Vector Bool 8) (regs regs' : RegFile) : Prop :=
  ∀ i : Fin 8, written[i] = true → regs[i] = regs'[i]

theorem RegsAgree.getElem_eq {written : Vector Bool 8} {regs regs' : RegFile} (h : RegsAgree written regs regs')
    (i : Byte) (hi : i.toNat < 8) (hw : written[i.toNat] = true) : regs[i.toNat] = regs'[i.toNat] :=
  h ⟨i.toNat, hi⟩ hw

/-- One write to both files keeps their agreement, with the register written marked. -/
theorem RegsAgree.set {written : Vector Bool 8} {regs regs' : RegFile} (h : RegsAgree written regs regs') (i v : Byte)
    (hi : i.toNat < 8) :
    RegsAgree (markWritten written (some i)) (regs.set i.toNat v) (regs'.set i.toNat v) := fun j hj => by
  simp only [Fin.getElem_fin, Vector.getElem_set]
  split
  · rfl
  · exact h j (((markWritten_some_eq_true written i j).1 hj).resolve_right ‹_›)

/-- An instruction that reads no unmarked register answers alike over register files that agree, and keeps them so. -/
theorem exec_of_regsAgree (i : Instr) (s t : State) (written : Vector Bool 8) (regs : RegFile)
    (hregs : RegsAgree written s.regs regs) (hfirst : firstUnwritten written (readsRegs i) = none)
    (h : exec i s = .next t) :
    ∃ regs', exec i { s with regs := regs } = .next { t with regs := regs' } ∧
      RegsAgree (markWritten written (writesReg i)) t.regs regs' := by
  cases i with
  | hlt => cases h; exact ⟨regs, rfl, hregs⟩
  | ldi r imm =>
    rcases (execLdi_eq_next ..).1 h with ⟨hr, rfl⟩ | ⟨hr, rfl⟩
    · exact ⟨_, (execLdi_eq_next ..).2 (.inl ⟨hr, rfl⟩), hregs.set r imm hr⟩
    · have unmarked : markWritten written (some r) = written := dif_neg (Nat.not_lt.2 hr)
      exact ⟨regs, (execLdi_eq_next ..).2 (.inr ⟨hr, rfl⟩), unmarked.symm ▸ hregs⟩
  | prn r =>
    rcases (execPrn_eq_next ..).1 h with ⟨hr, rfl⟩ | ⟨hr, rfl⟩
    · rw [hregs.getElem_eq r hr (marked_of_firstUnwritten_eq_none hfirst hr).1]
      exact ⟨regs, (execPrn_eq_next ..).2 (.inl ⟨hr, rfl⟩), hregs⟩
    · exact ⟨regs, (execPrn_eq_next ..).2 (.inr ⟨hr, rfl⟩), hregs⟩
  | mul a b =>
    rcases (execMul_eq_next ..).1 h with ⟨ha, hb, rfl⟩ | ⟨hab, rfl⟩
    · obtain ⟨hwa, hrest⟩ := marked_of_firstUnwritten_eq_none hfirst ha
      rw [hregs.getElem_eq a ha hwa, hregs.getElem_eq b hb (marked_of_firstUnwritten_eq_none hrest hb).1]
      exact ⟨_, (execMul_eq_next ..).2 (.inl ⟨ha, hb, rfl⟩), hregs.set a _ ha⟩
    · exact ⟨regs, (execMul_eq_next ..).2 (.inr ⟨hab, rfl⟩), fun j hj =>
        hregs j (((markWritten_writesReg_eq_true written (.mul a b) hfirst j).1 hj).resolve_right (by simp))⟩

/-- Agreement is a replacement of the register file by one that agrees. -/
theorem agree_iff (t u : Tracked) :
    t.agree u ↔ ∃ regs, u = { t with machine := { t.machine with regs := regs } } ∧
      RegsAgree t.written t.machine.regs regs := by
  constructor
  · obtain ⟨⟨mem, regs, pc, run, out⟩, written⟩ := u
    rintro ⟨rfl, rfl, rfl, rfl, rfl, hregs⟩
    exact ⟨regs, rfl, hregs⟩
  · rintro ⟨regs, rfl, hregs⟩
    exact ⟨rfl, rfl, rfl, rfl, rfl, hregs⟩

/-- A step of one of two machines that agree is a step of the other, and they still agree. -/
theorem stepTracked_of_agree (t u t' : Tracked) (h : t.agree u) (hstep : stepTracked t = .next t') :
    ∃ u', stepTracked u = .next u' ∧ t'.agree u' := by
  obtain ⟨regs, rfl, hregs⟩ := (agree_iff t u).1 h
  obtain ⟨ht, ⟨k, hfetch, rfl⟩ | ⟨i, s, hfetch, hfirst, hexec, rfl⟩⟩ := stepTracked_cases t t' hstep
  · exact ⟨_, stepTracked_of_fetchInstr_error _ k ht hfetch, (agree_iff ..).2 ⟨regs, rfl, hregs⟩⟩
  · obtain ⟨regs', hexec', hregs'⟩ := exec_of_regsAgree i t.machine s t.written regs hregs hfirst hexec
    exact ⟨_, stepTracked_of_fetchInstr_ok _ i _ ht hfetch hfirst hexec', (agree_iff ..).2 ⟨regs', rfl, hregs'⟩⟩

/-- Two machines that agree are in the same run state, fetch the same, and have the same marks, and so are about to read
the same unwritten register. -/
theorem stepTracked_fault_of_agree (t u : Tracked) (h : t.agree u) (f : ModelFault) (hstep : stepTracked t = .fault f) :
    stepTracked u = .fault f := by
  obtain ⟨regs, rfl, -⟩ := (agree_iff t u).1 h
  by_cases ht : t.machine.run = .running
  · rcases stepTracked_running t ht with ⟨k, -, hnext⟩ | ⟨i, r, hfetch, hfirst, hfault⟩ | ⟨i, s, -, -, -, hnext⟩
    · cases hnext.symm.trans hstep
    · cases hfault.symm.trans hstep
      exact stepTracked_of_firstUnwritten _ i r ht hfetch hfirst
    · cases hnext.symm.trans hstep
  · cases (stepTracked_of_not_running t ht).symm.trans hstep
    exact stepTracked_of_not_running _ ht

/-- Settles O47: by `stepTracked_of_agree` and `stepTracked_fault_of_agree`. -/
theorem unwrittenContentsUnseen : Obligations.UnwrittenContentsUnseen := fun t u h =>
  ⟨fun t' => stepTracked_of_agree t u t' h, stepTracked_fault_of_agree t u h⟩

/-! ## Runs under different `REG_INIT` (70_reset_and_hazards.md R243) -/

/-- A run of the mode from one of two machines that agree is a run of the machine itself from the other. -/
theorem core_run_of_trackedCore_run (n : Nat) (t u t' : Tracked) (h : t.agree u)
    (hrun : Host.Core.run trackedCore n t = .next t') :
    ∃ u', Host.Core.run core n u.machine = .next u'.machine ∧ t'.agree u' := by
  induction n generalizing t u with
  | zero => cases hrun; exact ⟨u, rfl, h⟩
  | succ n ih =>
    rw [trackedCore_run_succ] at hrun
    cases hstep : stepTracked t with
    | next t₁ =>
      obtain ⟨u₁, hstepu, h₁⟩ := stepTracked_of_agree t u t₁ h hstep
      obtain ⟨u', hrun', h'⟩ := ih t₁ u₁ h₁ (by simpa only [hstep] using hrun)
      exact ⟨u', (core_run_succ_of_step n _ _ (step_of_stepTracked u u₁ hstepu)).trans hrun', h'⟩
    | fault f => simp only [hstep, reduceCtorEq] at hrun
    | refused r => simp only [hstep, reduceCtorEq] at hrun

theorem agree_of_unmarked (s : State) (regs : RegFile) :
    Tracked.agree ⟨s, Vector.replicate 8 false⟩ ⟨{ s with regs := regs }, Vector.replicate 8 false⟩ :=
  (agree_iff ..).2 ⟨regs, rfl, fun i hi => by simp at hi⟩

/-- Settles O48: with no register marked the two loaded machines agree (`agree_of_unmarked`), and they run alike by
`core_run_of_trackedCore_run`. -/
theorem runIndependentOfRegInit : Obligations.RunIndependentOfRegInit := by
  intro bytes n init₁ init₂ s₁ s₂ t h₁ h₂ hrun
  obtain ⟨-, rfl⟩ := (load_eq_ok ..).1 h₁
  obtain ⟨-, rfl⟩ := (load_eq_ok ..).1 h₂
  obtain ⟨u, hrun', hmem, hpc, hstate, hout, -, hregs⟩ :=
    core_run_of_trackedCore_run n _ _ t (agree_of_unmarked _ init₂) hrun
  exact ⟨u.machine, hrun', hpc.symm, hstate.symm, hout.symm, hmem.symm, fun j hj => (hregs j hj).symm⟩

end Sys2Proof.Machine
end

section
/-! PROOF. The run state register (10_state.md R31) and the host: its moves (60_exceptions.md R221, R228;
70_reset_and_hazards.md R247, R248) and its exit statuses (60_exceptions.md R229). -/

namespace Sys2Proof.Machine

open Sys2Proof

/-! ## The run state register -/

/-- The run state that a register value encodes. -/
def RunState.ofCode (c : BitVec 4) : Option RunState :=
  match c.toNat with
  | 0b0000 => some .running
  | 0b0001 => some .halted
  | 0b0110 => some (.faulted .outOfBounds)
  | 0b1010 => some (.faulted .unsupportedOperation)
  | 0b1110 => some (.faulted .unknownOpcode)
  | _ => none

theorem RunState.ofCode_encode (p : RunState) : RunState.ofCode p.encode = some p := by
  cases p with
  | running => rfl
  | halted => rfl
  | faulted k => cases k <;> rfl

theorem RunState.stateField_ne_three (p : RunState) : p.encode.extractLsb' 0 2 ≠ 0b11#2 := by
  cases p with
  | running => decide
  | halted => decide
  | faulted k => cases k <;> decide

/-- Settles O49: the codes are read off `RunState.encode`, which `RunState.ofCode` inverts. -/
theorem runStateEncoding : Obligations.RunStateEncoding :=
  ⟨rfl, rfl, rfl, rfl, rfl,
    fun p q h => Option.some.inj ((p.ofCode_encode).symm.trans (h ▸ q.ofCode_encode)),
    RunState.stateField_ne_three⟩

/-! ## The moves -/

/-- Settles O50: a step and a run are allowed as `Session.perform_step_eq_some` and `Session.perform_run_eq_some` say,
a load in the phase ready only, and the remaining moves but a reset change nothing. -/
theorem hostWritesNothingDuringRun : Obligations.HostWritesNothingDuringRun := by
  refine ⟨fun x y h => ?_, fun x y h => ?_, fun x hx => ?_⟩
  · obtain ⟨-, t, hstep, rfl⟩ := (Session.perform_step_eq_some ..).1 h
    exact ⟨rfl, hstep⟩
  · obtain ⟨-, -, rfl⟩ := (Session.perform_run_eq_some ..).1 h
    exact ⟨rfl, rfl⟩
  · have not_ready : x.phase ≠ .ready := by rw [hx]; decide
    have no_load (bytes : List Byte) : x.perform (.load bytes) = none :=
      Option.eq_none_iff_forall_ne_some.2 fun _ h => not_ready ((Session.perform_load_eq_some ..).1 h).1
    have no_loadFile (path : List Char) (file : Option (List Line)) : x.perform (.loadFile path file) = none :=
      Option.eq_none_iff_forall_ne_some.2 fun _ h => not_ready ((Session.perform_loadFile_eq_some ..).1 h).1
    refine ⟨no_load, no_loadFile, fun mv y h => ?_⟩
    cases mv with
    | reset => exact .inl rfl
    | load bytes => cases (no_load bytes).symm.trans h
    | loadFile path file => cases (no_loadFile path file).symm.trans h
    | step => exact .inr (.inl rfl)
    | run => exact .inr (.inr (.inl rfl))
    | stop | readState | readOutput => exact .inr (.inr (.inr (Option.some.inj h).symm))

/-- Settles O58: the right sides of `Session.perform_load_ready`, `Session.perform_loadFile_ready`,
`Session.perform_step_eq_some` and `Session.perform_run_eq_some`, where the load succeeds and the machine is Running. -/
theorem hostMovesAllowed : Obligations.HostMovesAllowed := fun x => by
  refine ⟨fun hx bytes hlen => ?_, fun hx path file s hload => ?_, fun hx hrun => ⟨?_, ?_⟩, rfl, rfl, rfl⟩
  · have hload := (load_eq_ok x.machine _ bytes).2 ⟨hlen, rfl⟩
    exact ⟨_, hload, by rw [x.perform_load_ready hx, hload, Session.afterLoad_ok]⟩
  · rw [x.perform_loadFile_ready hx, hload, Session.afterLoad_ok]
  · obtain ⟨s, hstep⟩ := runningAlwaysSteps x.machine hrun
    exact ⟨s, hstep, (Session.perform_step_eq_some ..).2 ⟨hx, s, hstep, rfl⟩⟩
  · exact (Session.perform_run_eq_some ..).2 ⟨hx, hrun, rfl⟩

/-- After a loader error no step and no run is allowed. -/
theorem Session.no_step_of_loadFailed (x : Session) (hx : x.phase = .loadFailed) :
    x.perform .step = none ∧ x.perform .run = none :=
  ⟨Option.eq_none_iff_forall_ne_some.2 fun _ h => ((Session.perform_step_eq_some ..).1 h).1 hx,
    Option.eq_none_iff_forall_ne_some.2 fun _ h => ((Session.perform_run_eq_some ..).1 h).1 hx⟩

/-- Settles O51: either move leaves the machine and the phase after a failed load, where there is no step
(`Session.no_step_of_loadFailed`). -/
theorem noStepAfterLoaderError : Obligations.NoStepAfterLoaderError := fun x hx => by
  have failed (e : LoaderError) := (x.afterLoad (.error e)).no_step_of_loadFailed rfl
  refine ⟨fun path file e hload => ⟨x.afterLoad (.error e), ?_, rfl, failed e⟩,
    fun bytes hlen => ⟨x.afterLoad (.error .overflow), ?_, rfl, failed .overflow⟩⟩
  · rw [x.perform_loadFile_ready hx, hload]
  · rw [x.perform_load_ready hx, overlongLoadOverflows x.machine bytes hlen]

/-! ## The exit statuses -/

theorem exitStatus_of_loadFailed (c : Config.ExitStatuses) (x : Session) (hx : x.phase = .loadFailed) :
    exitStatus c x = some c.loaderError := by
  simp only [exitStatus, hx]

theorem exitStatus_of_faulted (c : Config.ExitStatuses) (x : Session) (k : FaultKind) (hx : x.phase ≠ .loadFailed)
    (hrun : x.machine.run = .faulted k) : exitStatus c x = some c.fault := by
  cases hphase : x.phase with
  | ready | stepped => simp only [exitStatus, hphase, hrun]
  | loadFailed => exact absurd hphase hx

/-- Settles O57: the two statuses are `loaderError` and `fault`, which R229 asks to be distinct and not 0. -/
theorem exitStatusesDistinct : Obligations.ExitStatusesDistinct := fun c x y k hc hx hy hrun => by
  rw [exitStatus_of_loadFailed c x hx, exitStatus_of_faulted c y k hy hrun]
  simpa [Config.exitStatusesOk, and_assoc] using hc

end Sys2Proof.Machine
end

section
/-! PROOF. The loader's text (60_exceptions.md R226 to R228): literals, surrounding space, and the three errors. -/

namespace Sys2Proof.Machine

open Sys2Proof

/-! ## Literals (R227) -/

/-- The value of a binary numeral with one more digit. -/
def appendBit (acc : Nat) (c : Char) : Nat :=
  2 * acc + (if c = '1' then 1 else 0)

/-- The value of a text of `0` and `1` is its value in base 2, and no other text has one. -/
theorem bitsValue_eq_some (text : Line) (acc n : Nat) :
    bitsValue acc text = some n ↔ (∀ c ∈ text, c = '0' ∨ c = '1') ∧ text.foldl appendBit acc = n := by
  induction text generalizing acc with
  | nil => simp [bitsValue]
  | cons c rest ih =>
    rw [bitsValue, List.foldl_cons, List.forall_mem_cons]
    by_cases h0 : c = '0'
    · subst h0; simp [ih, appendBit]
    by_cases h1 : c = '1'
    · subst h1; simp [ih, appendBit]
    · simp [h0, h1]

theorem parseByte_eq_ok (text : Line) (v : Byte) :
    parseByte text = .ok v ↔ text ≠ [] ∧ bitsValue 0 text = some v.toNat := by
  cases text with
  | nil => simp [parseByte]
  | cons c rest =>
    cases hvalue : bitsValue 0 (c :: rest) with
    | none => simp [parseByte, hvalue]
    | some n =>
      have hv := v.isLt
      by_cases hn : n ≤ 255
      · have byte_eq : BitVec.ofNat 8 n = v ↔ n = v.toNat := by
          rw [BitVec.toNat_eq, BitVec.toNat_ofNat, Nat.mod_eq_of_lt (Nat.lt_succ_of_le hn)]
        simp [parseByte, hvalue, hn, byte_eq]
      · have not_byte : n ≠ v.toNat := by omega
        simp [parseByte, hvalue, hn, not_byte]

theorem parseByte_eq_error (text : Line) (e : LoaderError) (h : parseByte text = .error e) : e = .parseError := by
  unfold parseByte at h
  split at h
  · cases h; rfl
  · split at h
    · split at h
      · cases h
      · cases h; rfl
    · cases h; rfl

/-- Settles O55: a literal's value is its value in base 2 (`bitsValue_eq_some`), a byte's if it is at most 255. -/
theorem literalsAreBinaryBytes : Obligations.LiteralsAreBinaryBytes := fun text =>
  ⟨fun v => (parseByte_eq_ok text v).trans (and_congr_right fun _ => bitsValue_eq_some text 0 v.toNat),
    parseByte_eq_error text⟩

/-! ## Surrounding space (R226) -/

/-- Whitespace before and after a text is trimmed away, whether anything else stands between or not. -/
theorem trimSpace_append (before text after : Line) (hbefore : ∀ c ∈ before, c.isWhitespace = true)
    (hafter : ∀ c ∈ after, c.isWhitespace = true) : trimSpace (before ++ text ++ after) = trimSpace text := by
  rw [List.append_assoc, trimSpace, trimSpace, List.dropWhile_append_of_pos hbefore, List.dropWhile_append]
  split
  · rename_i hblank
    rw [List.isEmpty_iff.1 hblank, List.dropWhile_eq_nil_iff.2 hafter]
  · rw [List.reverse_append, List.dropWhile_append_of_pos fun c hc => hafter c (List.mem_reverse.1 hc)]

theorem hash_not_mem_of_whitespace (line : Line) (h : ∀ c ∈ line, c.isWhitespace = true) : '#' ∉ line :=
  fun hmem => absurd (h '#' hmem) (by decide)

/-- A line without `#` contributes what its trimmed text does. -/
theorem parseLine_append_whitespace (before text after : Line) (hbefore : ∀ c ∈ before, c.isWhitespace = true)
    (hafter : ∀ c ∈ after, c.isWhitespace = true) (htext : '#' ∉ text) :
    parseLine (before ++ text ++ after) = parseLine text := by
  have hline : '#' ∉ before ++ text ++ after := by
    simp [hash_not_mem_of_whitespace before hbefore, hash_not_mem_of_whitespace after hafter, htext]
  rw [parseLine, parseLine, stripComment_eq_self _ hline, stripComment_eq_self _ htext,
    trimSpace_append before text after hbefore hafter]

/-- Settles O54: `parseLine_append_whitespace`, and again with nothing between the whitespace. -/
theorem surroundingSpaceTrimmed : Obligations.SurroundingSpaceTrimmed := by
  intro before text after hbefore hafter htext
  refine ⟨parseLine_append_whitespace before text after hbefore hafter htext, ?_⟩
  have blank := parseLine_append_whitespace before [] [] hbefore (by simp) (by simp)
  rw [List.append_nil, List.append_nil] at blank
  exact blank

/-! ## The loader's errors (R228) -/

theorem parseLine_eq_error (line : Line) (e : LoaderError) (h : parseLine line = .error e) : e = .parseError := by
  unfold parseLine at h
  dsimp only at h
  split at h
  · cases h
  · split at h
    · cases h
    · cases h; exact parseByte_eq_error _ e ‹_›

/-- A text fails by a line of it that does, and only with LoaderParseError. -/
theorem parseText_eq_error (text : List Line) (e : LoaderError) :
    parseText text = .error e ↔ e = .parseError ∧ ∃ line ∈ text, parseLine line = .error .parseError := by
  induction text with
  | nil => simp [parseText]
  | cons line rest ih =>
    cases hline : parseLine line with
    | error e' =>
      obtain rfl := parseLine_eq_error line e' hline
      simp [parseText, hline, eq_comm]
    | ok here => cases hrest : parseText rest <;> simp [parseText, hline, hrest, ← ih]

theorem loadFile_some_of_parseText_error (s : State) (path : List Char) (text : List Line) (e : LoaderError)
    (h : parseText text = .error e) : loadFile s path (some text) = .error e := by
  simp only [loadFile, h]

theorem loadFile_some_of_parseText_ok (s : State) (path : List Char) (text : List Line) (bytes : List Byte)
    (h : parseText text = .ok bytes) : loadFile s path (some text) = load s bytes := by
  simp only [loadFile, h]

/-- Settles O52: a text that does not parse fails as `parseText_eq_error` says, and one that does is loaded, which fails
as `load_eq_error` says. -/
theorem loaderErrorsExactly : Obligations.LoaderErrorsExactly := fun s path => by
  refine ⟨rfl, fun text => ?_⟩
  cases htext : parseText text with
  | error e =>
    obtain ⟨rfl, hline⟩ := (parseText_eq_error text e).1 htext
    rw [loadFile_some_of_parseText_error s path text _ htext]
    exact ⟨iff_of_true rfl hline, by simp, fun _ h => nomatch h⟩
  | ok bytes =>
    have no_bad_line : ¬ ∃ line ∈ text, parseLine line = .error .parseError := fun hline =>
      nomatch htext.symm.trans ((parseText_eq_error text .parseError).2 ⟨rfl, hline⟩)
    rw [loadFile_some_of_parseText_ok s path text bytes htext]
    refine ⟨iff_of_false (fun h => nomatch ((load_eq_error ..).1 h).2) no_bad_line, ?_, fun bytes' h hlen => ?_⟩
    · simp [load_eq_error]
    · cases h
      exact ⟨_, (load_eq_ok ..).2 ⟨hlen, rfl⟩, (load_eq_ok ..).2 ⟨hlen, rfl⟩⟩

end Sys2Proof.Machine
end

section
/-! PROOF. The rendered output (60_exceptions.md R224). -/

namespace Sys2Proof.Machine

open Sys2Proof

/-- The character of a decimal digit is a digit, of the digit's value. -/
theorem digitChar_of_lt_ten (d : Nat) (h : d < 10) :
    (digitChar d).isDigit = true ∧ (digitChar d).toNat - 48 = d ∧ (digitChar d = '0' → d = 0) := by
  revert d; decide

/-- A byte's numeral has one digit below 10, two below 100, and three from there on. -/
theorem decimal_eq (v : Byte) :
    (v.toNat < 10 ∧ decimal v = [digitChar v.toNat]) ∨
    (10 ≤ v.toNat ∧ v.toNat < 100 ∧ decimal v = [digitChar (v.toNat / 10), digitChar (v.toNat % 10)]) ∨
    (100 ≤ v.toNat ∧
      decimal v = [digitChar (v.toNat / 100), digitChar (v.toNat / 10 % 10), digitChar (v.toNat % 10)]) := by
  by_cases h10 : v.toNat < 10
  · simp [decimal, h10]
  by_cases h100 : v.toNat < 100
  · simp [decimal, h10, h100, Nat.le_of_not_lt h10]
  · simp [decimal, h10, h100, Nat.le_of_not_lt h100]

/-- A byte's numeral is a decimal numeral of the byte's value without leading zeros. -/
theorem decimal_numeral (v : Byte) :
    decimal v ≠ [] ∧ (decimal v).all Char.isDigit = true ∧
      (decimal v).foldl (fun acc c => 10 * acc + (c.toNat - 48)) 0 = v.toNat ∧
      ((decimal v).head? = some '0' → decimal v = ['0']) := by
  have hv := v.isLt
  rcases decimal_eq v with ⟨hlt, heq⟩ | ⟨hge, hlt, heq⟩ | ⟨hge, heq⟩
  · obtain ⟨hdigit, hvalue, -⟩ := digitChar_of_lt_ten v.toNat hlt
    rw [heq]
    exact ⟨by simp, by simp [hdigit], by simp [hvalue], by simp⟩
  · obtain ⟨hdigit₁, hvalue₁, hzero₁⟩ := digitChar_of_lt_ten (v.toNat / 10) (by omega)
    obtain ⟨hdigit₂, hvalue₂, -⟩ := digitChar_of_lt_ten (v.toNat % 10) (by omega)
    rw [heq]
    refine ⟨by simp, by simp [hdigit₁, hdigit₂], ?_, fun h => ?_⟩
    · simp only [List.foldl, hvalue₁, hvalue₂]; omega
    · have := hzero₁ (Option.some.inj h)
      omega
  · obtain ⟨hdigit₁, hvalue₁, hzero₁⟩ := digitChar_of_lt_ten (v.toNat / 100) (by omega)
    obtain ⟨hdigit₂, hvalue₂, -⟩ := digitChar_of_lt_ten (v.toNat / 10 % 10) (by omega)
    obtain ⟨hdigit₃, hvalue₃, -⟩ := digitChar_of_lt_ten (v.toNat % 10) (by omega)
    rw [heq]
    refine ⟨by simp, by simp [hdigit₁, hdigit₂, hdigit₃], ?_, fun h => ?_⟩
    · simp only [List.foldl, hvalue₁, hvalue₂, hvalue₃]; omega
    · have := hzero₁ (Option.some.inj h)
      omega

/-- Settles O56: `decimal_numeral` for each byte, and the lines of the rendering are joined in the trace's order. -/
theorem outputRendered : Obligations.OutputRendered :=
  ⟨decimal_numeral, fun _ => rfl, fun lineEnd out v => by simp [renderOutput]⟩

end Sys2Proof.Machine
end
